-- ==== Sys2Proof/Word.lean ====
section
/-! DEFINITION. The word types of the xpcrypt CORE: the 8-bit byte of every store and the 36-bit command word. -/

namespace Sys2Proof

/-- R11: a byte is an unsigned integer in 0..255. `+`, `-` and `^^^` on it are the `+8`, `-8` and `xor` of R11:
every single operation is reduced modulo 256 and no carry or borrow is kept (R24, R126). -/
abbrev Byte := BitVec 8

/-- R47: a command is one 36-bit command word, `CMD[35:0]`, bit 35 the most significant. -/
abbrev CmdWord := BitVec 36

end Sys2Proof
end

