-- ==== Sys2Proof/Config.lean ====
section
/-! DEFINITION. What is fixed for the machine: the parameters of R9 the document fixes or the spec decides, the four
concrete keys, and the one configuration record of the OPEN parameters (92_eei_decisions.md, "How the OPEN parameters
enter a model"). The hardware's configuration is an opaque constant: nothing can be proved of its values. -/

namespace Sys2Proof

/-- R9 `BLOCK_SIZE`: the period of the seed tables and the smallest accepted `LEN`. -/
abbrev blockSize : Nat := 512

/-- R9 `NIBBLE_MASK`: the mask that derives the auto key from byte 0. -/
abbrev nibbleMask : Byte := 0x0F#8

/-- R9 `SIG_OFFSET`: the offset of the signature word. -/
abbrev sigOffset : Nat := 0x10

/-- R9 `SIG_WORD`: the signature as a little-endian 32-bit word. -/
abbrev sigWord : BitVec 32 := 0x796E6F53#32

/-- R9 `KEY_AUTO` (D8): the auto sentinel. -/
abbrev keyAuto : Int := -1

/-- R9 `KEYS`, R13: the four concrete keys, each naming a variant of the code cipher. -/
inductive Key where
  | k4
  | k5
  | k6
  | k7
deriving DecidableEq, Repr

/-- R62: a concrete key taken as an 8-bit value, 0x04 to 0x07. -/
def Key.toByte : Key → Byte
  | .k4 => 4#8
  | .k5 => 5#8
  | .k6 => 6#8
  | .k7 => 7#8

/-- R51: a concrete key as the integer the `KEY` field holds. -/
def Key.toInt : Key → Int
  | .k4 => 4
  | .k5 => 5
  | .k6 => 6
  | .k7 => 7

/-- R62, R64: byte 0 of a list of lower registers with the byte-0 mask applied, the others as they are. It turns what
a decrypt step sees into what the encrypt step saw, and back. -/
def maskLow (k : Key) : List Byte → List Byte
  | [] => []
  | q :: qs => (q ^^^ k.toByte) :: qs

/-- R66: `CODE_FORMULAS`, the two step functions of the code cipher, with the inverse law of R67 as a proof field
(D14). `low` is the list `REC[0], …, REC[j-1]`, all a step may read beside `REC[j]` (R64). -/
structure CodeFormulas where
  /-- `ENC_STEP(k, j, x, low)`. -/
  encStep : Key → Nat → Byte → List Byte → Byte
  /-- `DEC_STEP(k, j, y, low)`. -/
  decStep : Key → Nat → Byte → List Byte → Byte
  /-- R67: the decrypt step, which sees byte 0 unmasked, undoes the encrypt step, which saw it masked; for `j` in 1..5
  and exactly the `j` lower bytes. -/
  inverse : ∀ (k : Key) (j : Nat) (x : Byte) (low : List Byte), 1 ≤ j → j ≤ 5 → low.length = j →
    decStep k j (encStep k j x (maskLow k low)) low = x

/-- R68 (c): for fixed key, position and lower bytes the encrypt step is a bijection of 0..255 and the decrypt step is
its two-sided inverse, so a value of `CODE_FORMULAS` is one permutation of the bytes for each key, position and list of
lower bytes as the encrypt step sees them (log 6; `CodeFormulas.eq_ofPerm` in Laws/Config.lean shows that no value of
`CODE_FORMULAS` is left out). -/
def CodeFormulas.ofPerm (p : Key → Nat → List Byte → Equiv.Perm Byte) : CodeFormulas where
  encStep k j x low := p k j low x
  decStep k j y low := (p k j (maskLow k low)).symm y
  inverse _ _ _ _ _ _ _ := Equiv.symm_apply_apply _ _

/-- The configuration record of 92_eei_decisions.md: one field per OPEN parameter of R9. -/
structure Config where
  /-- R23 `SEEDS1`: no law. -/
  seeds1 : Fin blockSize → Byte
  /-- R23 `SEEDS2`: no law. -/
  seeds2 : Fin blockSize → Byte
  /-- R66 `CODE_FORMULAS`, in the form of `CodeFormulas.ofPerm`. -/
  codePerm : Key → Nat → List Byte → Equiv.Perm Byte
  /-- R73 `CC_FAIL_WRITES_B0`: whether a failure with an explicit key, or with auto on `CC.ENC`, writes byte 0. -/
  ccFailWritesB0 : Bool
deriving Inhabited

/-- R66: the `CODE_FORMULAS` of a configuration. -/
def Config.formulas (c : Config) : CodeFormulas := CodeFormulas.ofPerm c.codePerm

/-- The hardware's configuration. It has no body: none of its values is in the spec (N1, N2, N10), so what is proved of
the machine holds for every configuration (logs 6, 7, 8). -/
opaque Config.hardware : Config

end Sys2Proof
end

