-- ==== Sys2Proof/Syntax.lean ====
section
/-! DEFINITION. The command type: one constructor per row of spec/opcode_table.json, over the decoded fields of R26. -/

namespace Sys2Proof

/-- R2: the two units of the CORE. -/
inductive CoreUnit where
  | cc
  | rc
deriving DecidableEq, Repr

/-- R4, R49: the five operations. `present` is the `P` bit (R50); `key` is the integer `KEY` (R51); `len` is the
unsigned integer `LEN` (R52). -/
inductive Instr where
  /-- `CC.ENC` (R71). -/
  | ccEnc (present : Bool) (key : Int)
  /-- `CC.DEC` (R72). -/
  | ccDec (present : Bool) (key : Int)
  /-- `RC.ENC` (R83). -/
  | rcEnc (present : Bool) (len : Nat)
  /-- `RC.DEC` (R84). -/
  | rcDec (present : Bool) (len : Nat)
  /-- `RC.AUTO` (R86). -/
  | rcAuto (present : Bool) (len : Nat)
deriving DecidableEq, Repr

/-- R49: the unit that executes a command. -/
def Instr.unit : Instr → CoreUnit
  | .ccEnc _ _ => .cc
  | .ccDec _ _ => .cc
  | .rcEnc _ _ => .rc
  | .rcDec _ _ => .rc
  | .rcAuto _ _ => .rc

/-- R50: the `P` bit of a command: its operand store is present. -/
def Instr.present : Instr → Bool
  | .ccEnc p _ => p
  | .ccDec p _ => p
  | .rcEnc p _ => p
  | .rcDec p _ => p
  | .rcAuto p _ => p

end Sys2Proof
end

