-- ==== Sys2Proof/WellFormed.lean ====
section
/-! DEFINITION. Which commands a command word can carry: the ranges of the decoded fields. -/

namespace Sys2Proof

/-- R51: `KEY` is a two's-complement integer of 32 bits. -/
def keyInRange (key : Int) : Bool := decide (-2 ^ 31 ≤ key) && decide (key < 2 ^ 31)

/-- R20, R52: `LEN` is an unsigned integer of 32 bits. -/
def lenInRange (len : Nat) : Bool := decide (len < 2 ^ 32)

/-- A command whose fields fit the command word of R48. Every value in range is a legal encoding (R55). -/
def Instr.wellFormed : Instr → Bool
  | .ccEnc _ key => keyInRange key
  | .ccDec _ key => keyInRange key
  | .rcEnc _ len => lenInRange len
  | .rcDec _ len => lenInRange len
  | .rcAuto _ len => lenInRange len

end Sys2Proof
end

