-- ==== Sys2Proof/Decode.lean ====
section
/-! DEFINITION. The decoder, total on 36-bit words and refusing the reserved operation codes by name (R48 to R55), the
encoder written from the same tables, and the host's numbering of a word's bits. -/

namespace Sys2Proof

/-- R54, R55: the decoder's one other verdict, `illegal`, with the reserved operation code it met. -/
inductive Illegal where
  /-- `OP` is 5, 6 or 7 (R54). -/
  | reservedOp (op : BitVec 3)
deriving DecidableEq, Repr

/-- R48: the operation code, `CMD[35:33]`. -/
def CmdWord.op (w : CmdWord) : BitVec 3 := w.extractLsb' 33 3

/-- R48, R50: the present bit, `CMD[32]`. -/
def CmdWord.present (w : CmdWord) : Bool := w.getLsbD 32

/-- R48: the argument, `CMD[31:0]`. -/
def CmdWord.arg (w : CmdWord) : BitVec 32 := w.extractLsb' 0 32

/-- R49, R51, R52, R54: a command word's meaning: `KEY` is the argument read as a two's-complement integer, `LEN` the
argument read as an unsigned integer, neither shifted nor scaled. -/
def decode (w : CmdWord) : Except Illegal Instr :=
  let present := CmdWord.present w
  let arg := CmdWord.arg w
  match (CmdWord.op w).toNat with
  | 0 => .ok (.ccEnc present arg.toInt)
  | 1 => .ok (.ccDec present arg.toInt)
  | 2 => .ok (.rcEnc present arg.toNat)
  | 3 => .ok (.rcDec present arg.toNat)
  | 4 => .ok (.rcAuto present arg.toNat)
  | _ => .error (.reservedOp (CmdWord.op w))

/-- R49: the operation codes. -/
def Instr.opcode : Instr → BitVec 3
  | .ccEnc _ _ => 0#3
  | .ccDec _ _ => 1#3
  | .rcEnc _ _ => 2#3
  | .rcDec _ _ => 3#3
  | .rcAuto _ _ => 4#3

/-- R51, R52: the argument field of a command. -/
def Instr.argField : Instr → BitVec 32
  | .ccEnc _ key => BitVec.ofInt 32 key
  | .ccDec _ key => BitVec.ofInt 32 key
  | .rcEnc _ len => BitVec.ofNat 32 len
  | .rcDec _ len => BitVec.ofNat 32 len
  | .rcAuto _ len => BitVec.ofNat 32 len

/-- R48: the command word with the three fields in their places. -/
def encodeFields (op : BitVec 3) (present : Bool) (arg : BitVec 32) : CmdWord :=
  (op ++ BitVec.ofBool present) ++ arg

/-- The command word of a well-formed command. -/
def encode (i : Instr) : CmdWord := encodeFields i.opcode i.present i.argField

/-- What the decoder reads from the word whose bits are `w`, numbered as spec/opcode_table.json numbers them. A command
is one 36-bit word (R47); a number with a bit set above bit 35 is no command word (log 17). -/
def decodeTableWord (nbits w : Nat) : Option Instr :=
  if w % 2 ^ nbits < 2 ^ 36 then (decode (BitVec.ofNat 36 (w % 2 ^ nbits))).toOption else none

end Sys2Proof
end

