-- ==== Sys2Proof/Machine/State.lean ====
section
/-! DEFINITION. The state of the machine: the two operand stores, the seed tables, the units, the results presented, and
the agenda that says which agent moves next. Plain data; the reset state of R29. -/

namespace Sys2Proof.Machine

/-- R27, R95: the result value of a command. -/
inductive Result where
  /-- `OK` (code 0). -/
  | ok
  /-- `INVALID_INPUT` (code 1). -/
  | invalidInput
  /-- `UNSUPPORTED_KEY` (code 2). -/
  | unsupportedKey
deriving DecidableEq, Repr

/-- R27, R100: one presentation of `RESULT`, by the unit whose command ended. -/
structure Report where
  unit : CoreUnit
  result : Result
deriving DecidableEq, Repr

/-- R129, R130: one move of the host, or the completion of a command in progress. The CORE has no program counter (R18);
a host program is a list of these (logs 10, 11). -/
inductive Event where
  /-- The host writes `v` to `REC[j]` (R16). -/
  | hostWriteRecord (j : Fin 6) (v : Byte)
  /-- The host reads `REC[j]` (R16): no side effect (R36). -/
  | hostReadRecord (j : Fin 6)
  /-- The host makes `BUF` a buffer of `n` bytes; bytes below `n` stay (R130 "change `LEN` freely"). -/
  | hostSetLen (n : Nat)
  /-- The host writes `v` to `BUF[i]` (R19). -/
  | hostWriteBuf (i : Nat) (v : Byte)
  /-- The host reads `BUF[i]` (R19): no side effect (R36). -/
  | hostReadBuf (i : Nat)
  /-- The host issues a command word and does nothing until its result is presented (R5, R18). -/
  | call (w : CmdWord)
  /-- The host issues a command word and goes on; the command stays in progress (R44, R130). -/
  | issue (w : CmdWord)
  /-- The command in progress in the unit runs to its end, as one atomic step (R5, R35). -/
  | complete (u : CoreUnit)
  /-- A reset between commands (R113). -/
  | reset
deriving DecidableEq, Repr

/-- The reasons a run stops as a fault of the host program. Each is safe: nothing can be proved of a state after it. -/
inductive Fault where
  /-- Raised by `CC.ENC` and `CC.DEC` when they read `REC[j]` and the host has not written it since reset (R29, R117,
  U9). Safe. -/
  | unwrittenRecord (j : Nat)
  /-- Raised by `RC.ENC`, `RC.DEC` and `RC.AUTO` when they read `BUF[i]` and the host has not written it since reset
  (R29, R118, U9). Safe. -/
  | unwrittenBuf (i : Nat)
  /-- Raised by an access to an offset that is not below `LEN`: `BUF` has no such location (R19, R37). Safe. -/
  | outsideBuf (i : Nat)
deriving DecidableEq, Repr

/-- The reasons the model gives no meaning to a move. -/
inductive Refusal where
  /-- Raised by no arm of `exec`: every command has its meaning. Safe. -/
  | notModelled (mnemonic : String)
  /-- Raised by the issue of a word with a reserved operation code (R54, U6). Safe. -/
  | reservedOp (op : BitVec 3)
  /-- Raised by a second command to a unit with a command in progress (R43, R44, U5). Safe. -/
  | unitBusy (u : CoreUnit)
  /-- Raised by a host access to an operand store that a command in progress holds (R43, R121, U5). Safe. -/
  | storeInUse (u : CoreUnit)
  /-- Raised by an RC command that passes the input check and whose `LEN` is not the size of the host's buffer (R120,
  U11). Safe. -/
  | lenMismatch (given actual : Nat)
  /-- Raised by a reset while a command is in progress (R114, U10). Safe. -/
  | resetDuringCommand
deriving DecidableEq, Repr

/-- The machine. Every field is named under '## State' of INVENTORY.md with its rule. -/
@[ext]
structure State where
  /-- `REC[0..5]` (R15). -/
  record : Vector Byte 6
  /-- Whether the host has written `REC[j]` since reset (R29, R117). -/
  recordWritten : Vector Bool 6
  /-- `BUF` (R19): offsets strictly rising; an unlisted byte has not been written since reset. -/
  buf : List Host.Cell
  /-- `LEN`, the number of bytes of the host's buffer (R20, R120). -/
  len : Nat
  /-- `SEEDS1` (R21). -/
  seeds1 : Vector Byte blockSize
  /-- `SEEDS2` (R21). -/
  seeds2 : Vector Byte blockSize
  /-- The command in progress in the CC unit; none when the unit is idle (R26, R29). -/
  ccCommand : Option Instr
  /-- The command in progress in the RC unit; none when the unit is idle (R26, R29). -/
  rcCommand : Option Instr
  /-- The results presented so far, oldest first (R129). -/
  results : List Report
  /-- The moves to come, next first (R129, R130). -/
  agenda : List Event
deriving DecidableEq, Repr

/-- R29, R113: the machine right after reset. The tables hold their constants and the units are idle; `REC`, `BUF` and
`LEN` are unspecified and unwritten, with the values of logs 1 and 2; no result is held and no move is planned. -/
def State.reset : State where
  record := Vector.replicate 6 0#8
  recordWritten := Vector.replicate 6 false
  buf := []
  len := 0
  seeds1 := Vector.ofFn Config.hardware.seeds1
  seeds2 := Vector.ofFn Config.hardware.seeds2
  ccCommand := none
  rcCommand := none
  results := []
  agenda := []

end Sys2Proof.Machine
end

