-- ==== Sys2Proof/Machine/Ops.lean ====
section
/-! DEFINITION. The named operations over the stores: `REC`, `BUF`, the seed tables, the units' commands, the results,
and reset. Every read or write of the state by a command or by the host goes through one of them. The CORE has no trap
and no return from one (R101, R105): an error ends a command as success does, by `State.present`. -/

namespace Sys2Proof.Machine

/-! ### Memory: a list of cells, offsets strictly rising -/

/-- What an unlisted byte of `BUF` reads as: no value, for the host has not written it since reset (R29, U9, log 3). -/
def unlistedByte : Option Byte := none

/-- The canonical form: offsets strictly rising. No entry can equal what an unlisted byte reads as, for that is no
value. -/
abbrev Memory.wf (m : List Host.Cell) : Prop := m.Pairwise (fun a b => a.1 < b.1)

/-- The byte at one offset (R19, R31 `MemRead(a, 1)`). -/
def memRead : List Host.Cell → Nat → Option Byte
  | [], _ => unlistedByte
  | c :: rest, i => if c.1 = i then some c.2 else memRead rest i

/-- A byte written at one offset (R12 `MemWrite(a, 1, v)`). -/
def memWrite : List Host.Cell → Nat → Byte → List Host.Cell
  | [], i, v => [(i, v)]
  | c :: rest, i, v =>
    if i < c.1 then (i, v) :: c :: rest
    else if c.1 = i then (i, v) :: rest
    else c :: memWrite rest i v

/-- The bytes below `n`: what is left of `BUF` when the host makes it a buffer of `n` bytes. -/
def memBelow (n : Nat) (m : List Host.Cell) : List Host.Cell := m.filter (fun c => decide (c.1 < n))

/-- Every byte below `n` replaced by a function of its offset and its old value: the pass of R83 and R84 as a map over
offsets (R85). -/
def memMap (n : Nat) (f : Nat → Byte → Byte) (m : List Host.Cell) : List Host.Cell :=
  m.map (fun c => if c.1 < n then (c.1, f c.1 c.2) else c)

/-- The least offset from `i` up to `n` that is not listed, found in one pass over a canonical list whose entries start
at `i`; none when all are (`firstUnlisted_eq_none` in Laws/Memory.lean). -/
def firstUnlisted (n : Nat) : Nat → List Host.Cell → Option Nat
  | i, [] => if i < n then some i else none
  | i, c :: rest =>
    if n ≤ i then none else if c.1 = i then firstUnlisted n (i + 1) rest else some i

/-! ### The code record -/

/-- A command's read of `REC[j]`. R29 (10_state.md:73): "A model must treat a read of an operand-store byte that the host
has not written since reset as a fault of the host program, never as zero"; so R117, U9 and D18. -/
def State.readRecordByte (s : State) (j : Fin 6) : Except Fault Byte :=
  if s.recordWritten[j] then .ok s.record[j] else .error (.unwrittenRecord j)

/-- A command's read of all six registers, with the fault of R29 and R117; it names the lowest unwritten one (log 5). -/
def State.readRecord (s : State) : Except Fault (Vector Byte 6) :=
  match ([0, 1, 2, 3, 4, 5] : List (Fin 6)).find? (fun j => !s.recordWritten[j]) with
  | some j => .error (.unwrittenRecord j)
  | none => .ok s.record

/-- A command's write of the record, in place (R15). -/
def State.writeRecord (s : State) (r : Vector Byte 6) : State := { s with record := r }

/-- The host's write of `REC[j]` (R16); from then on the byte has been written since reset (R29). -/
def State.hostWriteRecordByte (s : State) (j : Fin 6) (v : Byte) : State :=
  { s with record := s.record.set j v, recordWritten := s.recordWritten.set j true }

/-! ### The ROM buffer -/

/-- A command's read of `BUF[i]` (R19, R29, R37, U9). -/
def State.readBuf (s : State) (i : Nat) : Except Fault Byte :=
  if i < s.len then
    match memRead s.buf i with
    | some b => .ok b
    | none => .error (.unwrittenBuf i)
  else .error (.outsideBuf i)

/-- Four bytes as a little-endian 32-bit word: the first is the least significant (R31). -/
def littleEndianWord (b0 b1 b2 b3 : Byte) : BitVec 32 := ((b3 ++ b2) ++ b1) ++ b0

/-- R31: `MemRead(i, 4)`, four byte reads composed little-endian. -/
def State.readBufWord (s : State) (i : Nat) : Except Fault (BitVec 32) := do
  let b0 ← s.readBuf i
  let b1 ← s.readBuf (i + 1)
  let b2 ← s.readBuf (i + 2)
  let b3 ← s.readBuf (i + 3)
  pure (littleEndianWord b0 b1 b2 b3)

/-- One pass over `BUF[0..n-1]` that reads each byte and writes `f` of its offset and value there (R83, R84, R85); a
fault at the lowest byte the host has not written since reset (R118, U9). -/
def State.transformBuf (s : State) (n : Nat) (f : Nat → Byte → Byte) : Except Fault State :=
  match firstUnlisted n 0 s.buf with
  | some i => .error (.unwrittenBuf i)
  | none => .ok { s with buf := memMap n f s.buf }

/-- The host's write of `BUF[i]` (R19). -/
def State.hostWriteBufByte (s : State) (i : Nat) (v : Byte) : State := { s with buf := memWrite s.buf i v }

/-- The host makes `BUF` a buffer of `n` bytes (R120, R130): bytes below `n` stay, the others are gone. -/
def State.hostSetLength (s : State) (n : Nat) : State := { s with len := n, buf := memBelow n s.buf }

/-! ### The seed tables -/

/-- R38: `SEEDS1` at the index of buffer offset `i`, `i mod 512`. There is no write (R22). -/
def State.seed1 (s : State) (i : Nat) : Byte := s.seeds1[i % blockSize]'(Nat.mod_lt i (by decide))

/-- R38: `SEEDS2` at the index of buffer offset `i`, `i mod 512`. There is no write (R22). -/
def State.seed2 (s : State) (i : Nat) : Byte := s.seeds2[i % blockSize]'(Nat.mod_lt i (by decide))

/-! ### Units, results, reset -/

/-- The command in progress in a unit (R29). -/
def State.command (s : State) : CoreUnit → Option Instr
  | .cc => s.ccCommand
  | .rc => s.rcCommand

/-- A unit takes or gives up its command (R5, R105). -/
def State.setCommand (s : State) (u : CoreUnit) (c : Option Instr) : State :=
  match u with
  | .cc => { s with ccCommand := c }
  | .rc => { s with rcCommand := c }

/-- R130: the host hands its store over for the duration of a command with `P` = 1, and only then. -/
def State.storeHeld (s : State) (u : CoreUnit) : Bool :=
  match s.command u with
  | some i => i.present
  | none => false

/-- R27, R42, R105: a command ends; its unit presents its result and nothing else is kept of it. -/
def State.present (s : State) (u : CoreUnit) (r : Result) : State :=
  { s with results := s.results ++ [⟨u, r⟩] }

/-- R29, R113: the effect of a reset between commands. The tables stay; the stores are unspecified and unwritten again
(log 15); the units are idle. The host's plan and the results it already has are the host's. -/
def State.afterReset (s : State) : State :=
  { s with
    record := State.reset.record, recordWritten := State.reset.recordWritten,
    buf := State.reset.buf, len := State.reset.len, ccCommand := none, rcCommand := none }

end Sys2Proof.Machine
end

