-- ==== Sys2Proof/Machine/Flags.lean ====
section
/-! DEFINITION. The CORE has no flags (R24): the only outcome indication is the result value. This file computes it: the
integer codes, and the verdict of every operation on every operand, by the table of R98. -/

namespace Sys2Proof.Machine

/-- R27, R95 (D10): the integer that carries a result to the host. -/
def Result.code : Result → Nat
  | .ok => 0
  | .invalidInput => 1
  | .unsupportedKey => 2

/-- R70: the concrete key an integer names, if it is 4, 5, 6 or 7; the whole integer is compared (R51, D24). -/
def keyOfInt (key : Int) : Option Key :=
  if key = 4 then some .k4
  else if key = 5 then some .k5
  else if key = 6 then some .k6
  else if key = 7 then some .k7
  else none

/-- R70: the auto key, the low 4 bits of byte 0 before it is unmasked. -/
def autoNibble (b : Byte) : Byte := b &&& nibbleMask

/-- R70: a resolved key is valid when it is one of the four. -/
def keyVerdict (key : Int) : Result :=
  match keyOfInt key with
  | some _ => .ok
  | none => .unsupportedKey

/-- R98: the result of each operation, conditions tested in the order of its rows; `b0` is `REC[0]` at the start of the
command, which only `CC.DEC` with auto looks at. -/
def verdict (b0 : Byte) : Instr → Result
  | .ccEnc present key =>
    if present = false then .invalidInput
    else if key = keyAuto then .invalidInput
    else keyVerdict key
  | .ccDec present key =>
    if present = false then .invalidInput
    else if key = keyAuto then keyVerdict ((autoNibble b0).toNat : Int)
    else keyVerdict key
  | .rcEnc present len => if present = false then .invalidInput else if len < blockSize then .invalidInput else .ok
  | .rcDec present len => if present = false then .invalidInput else if len < blockSize then .invalidInput else .ok
  | .rcAuto present len => if present = false then .invalidInput else if len < blockSize then .invalidInput else .ok

end Sys2Proof.Machine
end

