-- ==== Sys2Proof/Machine/Operands.lean ====
section
/-! DEFINITION. The operand forms: the record as the code cipher sees it (mask, lower bytes, the two orders of the
steps), a byte of the buffer as the ROM cipher sees it, and the operand checks each unit makes before it runs. -/

namespace Sys2Proof.Machine

/-! ### Code cipher -/

/-- R62: the byte-0 step, `REC[0] <- REC[0] xor m`. -/
def maskByte0 (m : Byte) (r : Vector Byte 6) : Vector Byte 6 := r.set 0 (r[0] ^^^ m)

/-- R64: what a step at `j` may read beside `REC[j]`: the current `REC[0]`, …, `REC[j-1]`. -/
def lowerBytes (r : Vector Byte 6) (j : Nat) : List Byte := r.toList.take j

/-- R64, R66: the encrypt step at `j`. -/
def encStepAt (f : CodeFormulas) (k : Key) (r : Vector Byte 6) (j : Fin 6) : Vector Byte 6 :=
  r.set j (f.encStep k j r[j] (lowerBytes r j))

/-- R64, R66: the decrypt step at `j`. -/
def decStepAt (f : CodeFormulas) (k : Key) (r : Vector Byte 6) (j : Fin 6) : Vector Byte 6 :=
  r.set j (f.decStep k j r[j] (lowerBytes r j))

/-- R63: encrypt replaces byte 5 down to byte 1, each once. -/
def encryptSteps (f : CodeFormulas) (k : Key) (r : Vector Byte 6) : Vector Byte 6 :=
  ([5, 4, 3, 2, 1] : List (Fin 6)).foldl (encStepAt f k) r

/-- R63: decrypt replaces byte 1 up to byte 5, each once. -/
def decryptSteps (f : CodeFormulas) (k : Key) (r : Vector Byte 6) : Vector Byte 6 :=
  ([1, 2, 3, 4, 5] : List (Fin 6)).foldl (decStepAt f k) r

/-- R71: the whole encryption of a record with a concrete key. -/
def encryptRecord (f : CodeFormulas) (k : Key) (r : Vector Byte 6) : Vector Byte 6 :=
  encryptSteps f k (maskByte0 k.toByte r)

/-- R72: the whole decryption of a record with a concrete key. -/
def decryptRecord (f : CodeFormulas) (k : Key) (r : Vector Byte 6) : Vector Byte 6 :=
  decryptSteps f k (maskByte0 k.toByte r)

/-- R73 `FAIL_WRITE(KEY)` (D13, D26): nothing, or byte 0 XORed with `ARG[7:0]`, the key reduced modulo 256. -/
def failWrite (writesB0 : Bool) (key : Int) (r : Vector Byte 6) : Vector Byte 6 :=
  if writesB0 then maskByte0 (BitVec.ofInt 8 key) r else r

/-! ### ROM cipher -/

/-- R83: `(b -8 s2) xor s1`, subtraction first. -/
def romEncByte (s1 s2 b : Byte) : Byte := (b - s2) ^^^ s1

/-- R84: `(c xor s1) +8 s2`, XOR first. -/
def romDecByte (s1 s2 c : Byte) : Byte := (c ^^^ s1) + s2

/-- R83: what `RC.ENC` writes at offset `i` for the byte `b` read there. -/
def State.romEncAt (s : State) (i : Nat) (b : Byte) : Byte := romEncByte (s.seed1 i) (s.seed2 i) b

/-- R84: what `RC.DEC` writes at offset `i` for the byte `c` read there. -/
def State.romDecAt (s : State) (i : Nat) (c : Byte) : Byte := romDecByte (s.seed1 i) (s.seed2 i) c

/-- R82: the input check of the RC unit, before any access to `BUF`; then the host's duty that `LEN` is the size of its
buffer (R120, U11, log 9). `body` is what the operation does when both hold. -/
def rcChecked (present : Bool) (len : Nat) (s : State) (body : Host.Outcome State Fault Refusal) :
    Host.Outcome State Fault Refusal :=
  if present = false then .next (s.present .rc .invalidInput)
  else if len < blockSize then .next (s.present .rc .invalidInput)
  else if len ≠ s.len then .refused (.lenMismatch len s.len)
  else body

/-- R83, R84: the single pass over the buffer with the per-byte transform `f`, ending in `OK`. -/
def rcPass (len : Nat) (f : Nat → Byte → Byte) (s : State) : Host.Outcome State Fault Refusal :=
  match s.transformBuf len f with
  | .error e => .fault e
  | .ok t => .next (t.present .rc .ok)

end Sys2Proof.Machine
end

