-- ==== Sys2Proof/Machine/CodeCipher.lean ====
section
/-! DEFINITION. The Code Cipher unit: `CC.ENC` and `CC.DEC` (40_code_cipher.md). -/

namespace Sys2Proof.Machine

/-- The presence check of R69, then the read of `REC[0]` that a CC command with a present record always makes (R117,
log 4). `body` is what the operation does with byte 0. -/
def ccChecked (present : Bool) (s : State) (body : Byte → Host.Outcome State Fault Refusal) :
    Host.Outcome State Fault Refusal :=
  if present = false then .next (s.present .cc .invalidInput)
  else
    match s.readRecordByte 0 with
    | .error e => .fault e
    | .ok b0 => body b0

/-- The formula steps on the whole record, ending in `OK` (R71, R72). -/
def ccTransform (g : Vector Byte 6 → Vector Byte 6) (s : State) : Host.Outcome State Fault Refusal :=
  match s.readRecord with
  | .error e => .fault e
  | .ok r => .next ((s.writeRecord (g r)).present .cc .ok)

/-- A key that is not a concrete one: `FAIL_WRITE(KEY)`, then the error (R73). -/
def ccKeyFailure (cfg : Config) (key : Int) (r : Result) (s : State) : Host.Outcome State Fault Refusal :=
  .next ((s.writeRecord (failWrite cfg.ccFailWritesB0 key s.record)).present .cc r)

/-- R71 under a configuration: encrypt the record in place with a concrete key. -/
def ccEncrypt (cfg : Config) (present : Bool) (key : Int) (s : State) : Host.Outcome State Fault Refusal :=
  ccChecked present s fun _ =>
    if key = keyAuto then ccKeyFailure cfg key .invalidInput s
    else
      match keyOfInt key with
      | none => ccKeyFailure cfg key .unsupportedKey s
      | some k => ccTransform (encryptRecord cfg.formulas k) s

/-- R72 under a configuration: decrypt the record in place with a concrete key or with the key its byte 0 carries. On
the auto path the nibble is read first, byte 0 is unmasked with it, and only then the key is validated. -/
def ccDecrypt (cfg : Config) (present : Bool) (key : Int) (s : State) : Host.Outcome State Fault Refusal :=
  ccChecked present s fun b0 =>
    if key = keyAuto then
      match keyOfInt ((autoNibble b0).toNat : Int) with
      | none => .next ((s.writeRecord (maskByte0 (autoNibble b0) s.record)).present .cc .unsupportedKey)
      | some k => ccTransform (fun r => decryptSteps cfg.formulas k (maskByte0 (autoNibble b0) r)) s
    else
      match keyOfInt key with
      | none => ccKeyFailure cfg key .unsupportedKey s
      | some k => ccTransform (decryptRecord cfg.formulas k) s

/-- `CC.ENC` (R71). -/
def execCcEnc (present : Bool) (key : Int) (s : State) : Host.Outcome State Fault Refusal :=
  ccEncrypt Config.hardware present key s

/-- `CC.DEC` (R72). -/
def execCcDec (present : Bool) (key : Int) (s : State) : Host.Outcome State Fault Refusal :=
  ccDecrypt Config.hardware present key s

end Sys2Proof.Machine
end

