-- ==== Sys2Proof/Machine/RomCipher.lean ====
section
/-! DEFINITION. The ROM Cipher unit: `RC.ENC`, `RC.DEC` and `RC.AUTO` (41_rom_cipher.md). -/

namespace Sys2Proof.Machine

/-- `RC.ENC` (R83). -/
def execRcEnc (present : Bool) (len : Nat) (s : State) : Host.Outcome State Fault Refusal :=
  rcChecked present len s (rcPass len s.romEncAt s)

/-- `RC.DEC` (R84). -/
def execRcDec (present : Bool) (len : Nat) (s : State) : Host.Outcome State Fault Refusal :=
  rcChecked present len s (rcPass len s.romDecAt s)

/-- `RC.AUTO` (R86): one decision, from the word at 0x10 before any byte is written (R87): the signature selects
encryption, any other word decryption. -/
def execRcAuto (present : Bool) (len : Nat) (s : State) : Host.Outcome State Fault Refusal :=
  rcChecked present len s
    (match s.readBufWord sigOffset with
    | .error e => .fault e
    | .ok w => if w = sigWord then rcPass len s.romEncAt s else rcPass len s.romDecAt s)

end Sys2Proof.Machine
end

