-- ==== Sys2Proof/Machine/Dispatch.lean ====
section
/-! DEFINITION. The dispatch of a decoded command to its meaning (R49): one arm per constructor of `Instr`. -/

namespace Sys2Proof.Machine

/-- R5, R49: a command, executed by its unit as one atomic step. -/
def exec (i : Instr) (s : State) : Host.Outcome State Fault Refusal :=
  match i with
  | .ccEnc present key => Sys2Proof.Machine.execCcEnc present key s
  | .ccDec present key => Sys2Proof.Machine.execCcDec present key s
  | .rcEnc present len => Sys2Proof.Machine.execRcEnc present len s
  | .rcDec present len => Sys2Proof.Machine.execRcDec present len s
  | .rcAuto present len => Sys2Proof.Machine.execRcAuto present len s

end Sys2Proof.Machine
end

