-- ==== Sys2Proof/Machine/Agenda.lean ====
section
/-! DEFINITION. What each move of the agenda does: the host's accesses, the issue of a command, the completion of a
command in progress, and a reset (R43, R44, R113, R121, R129, R130). -/

namespace Sys2Proof.Machine

/-- R43, R121: the host reaches an operand store only while no command holds it. -/
def hostAccess (u : CoreUnit) (s : State) (body : Host.Outcome State Fault Refusal) : Host.Outcome State Fault Refusal :=
  if s.storeHeld u then .refused (.storeInUse u) else body

/-- R37: a host access to `BUF[i]`, which exists only below `LEN` (log 18). -/
def hostBufAccess (i : Nat) (s : State) (body : Host.Outcome State Fault Refusal) : Host.Outcome State Fault Refusal :=
  hostAccess .rc s (if i < s.len then body else .fault (.outsideBuf i))

/-- The issue of a command word: it is decoded, a reserved operation code is refused (R54), and so is a command to a
unit that has one in progress (R43, R44). `body` is what the accepted command does. -/
def accept (w : CmdWord) (s : State) (body : Instr → Host.Outcome State Fault Refusal) :
    Host.Outcome State Fault Refusal :=
  match decode w with
  | .error (.reservedOp op) => .refused (.reservedOp op)
  | .ok i => if (s.command i.unit).isSome then .refused (.unitBusy i.unit) else body i

/-- The command in progress in a unit runs to its end, as one atomic step (R5, R35); an idle unit does nothing (R6). -/
def completeUnit (u : CoreUnit) (s : State) : Host.Outcome State Fault Refusal :=
  match s.command u with
  | some i => exec i (s.setCommand u none)
  | none => .next s

/-- A reset; one that meets a command in progress has no meaning (R113, R114, U10). -/
def hostReset (s : State) : Host.Outcome State Fault Refusal :=
  if s.ccCommand.isSome || s.rcCommand.isSome then .refused .resetDuringCommand else .next s.afterReset

/-- One move, on the state whose agenda no longer holds it. -/
def runEvent (e : Event) (s : State) : Host.Outcome State Fault Refusal :=
  match e with
  | .hostWriteRecord j v => hostAccess .cc s (.next (s.hostWriteRecordByte j v))
  | .hostReadRecord _ => hostAccess .cc s (.next s)
  | .hostSetLen n => hostAccess .rc s (.next (s.hostSetLength n))
  | .hostWriteBuf i v => hostBufAccess i s (.next (s.hostWriteBufByte i v))
  | .hostReadBuf i => hostBufAccess i s (.next s)
  | .call w => accept w s fun i => exec i s
  | .issue w => accept w s fun i => .next (s.setCommand i.unit (some i))
  | .complete u => completeUnit u s
  | .reset => hostReset s

/-- The agenda is empty: a command still in progress ends (R128), the CC unit's first (log 12); with both units idle
nothing moves, for no unit starts an operation of its own (R6). -/
def drain (s : State) : Host.Outcome State Fault Refusal :=
  if s.ccCommand.isSome then completeUnit .cc s else completeUnit .rc s

/-- The next move of the machine: the head of the agenda, or the drain at its end. -/
def advance (s : State) : Host.Outcome State Fault Refusal :=
  match s.agenda with
  | [] => drain s
  | e :: rest => runEvent e { s with agenda := rest }

/-- The state in which the very next move is to issue the command word of the given bits and run it to its end: the word
goes to the head of the agenda, and the units are idle so that it is accepted (logs 10, 17). -/
def placeWord (nbits w : Nat) (s : State) : State :=
  { s with
    ccCommand := none, rcCommand := none,
    agenda := .call (BitVec.ofNat 36 (w % 2 ^ nbits)) :: s.agenda }

end Sys2Proof.Machine
end

