-- ==== Sys2Proof/Machine/Step.lean ====
section
/-! DEFINITION. The step of the machine, and the state in which the next step runs a given command word. -/

namespace Sys2Proof.Machine

/-- One step: the next move of the agenda (R5, R129). -/
def step (s : State) : Host.Outcome State Fault Refusal := advance s

/-- `s` with the command word of bits `w` placed where the next step finds it. -/
def State.withFetchWord (s : State) (nbits w : Nat) : State := placeWord nbits w s

end Sys2Proof.Machine
end

