-- ==== Sys2Proof/Machine/Asm.lean ====
section
/-! DEFINITION. The notation around commands: the text form of a record (R60), the command lines and the pseudo-operand
`auto` (R58, R59), and the host directives as moves of the host (R59). No step of the machine reads text (R60). -/

namespace Sys2Proof.Machine

/-! ### Digits and numbers -/

/-- The sixteen digits of R60 in the case it writes ("uppercase on output"), each at the place of its value. -/
def hexDigits : List Char := "0123456789ABCDEF".toList

/-- The value of a digit: its place among the sixteen, in either case (R60 "case-insensitive on input"). -/
def hexDigit (c : Char) : Option Nat := hexDigits.idxOf? c.toUpper

/-- The digit of a value below 16 (R60). -/
def hexChar (n : Nat) : Char := hexDigits.getD n '0'

/-- A digit of a base, 10 or 16. -/
def digitIn (base : Nat) (c : Char) : Option Nat := (hexDigit c).filter (fun d => decide (d < base))

/-- Digits read from the most significant one, onto an accumulator. -/
def readDigits (base : Nat) : Nat → List Char → Option Nat
  | acc, [] => some acc
  | acc, c :: cs => (digitIn base c).bind fun d => readDigits base (base * acc + d) cs

/-- A decimal or `0x` hexadecimal natural number (R58); at least one digit. -/
def readNat : List Char → Option Nat
  | '0' :: 'x' :: c :: cs => readDigits 16 0 (c :: cs)
  | c :: cs => readDigits 10 0 (c :: cs)
  | [] => none

/-- A decimal or `0x` hexadecimal integer (R58). -/
def readInt : List Char → Option Int
  | '-' :: cs => (readNat cs).map fun n => -(n : Int)
  | cs => (readNat cs).map fun n => (n : Int)

/-! ### The text form of a record (R60) -/

/-- A byte as two digits, the most significant first. -/
def byteText (b : Byte) : List Char := [hexChar (b.toNat / 16), hexChar (b.toNat % 16)]

/-- R60: `AABBCCDD EEFF`. -/
def recordText (r : Vector Byte 6) : String :=
  String.ofList (((r.toList.take 4).flatMap byteText) ++ ' ' :: ((r.toList.drop 4).flatMap byteText))

/-- Two digits as a byte. -/
def readByte (hi lo : Char) : Option Byte :=
  (hexDigit hi).bind fun h => (hexDigit lo).map fun l => BitVec.ofNat 8 (16 * h + l)

/-- R60: eight digits, one space, four digits, in either case; anything else is no record. -/
def readRecord : List Char → Option (Vector Byte 6)
  | [a1, a0, b1, b0, c1, c0, d1, d0, ' ', e1, e0, f1, f0] => do
    let a ← readByte a1 a0
    let b ← readByte b1 b0
    let c ← readByte c1 c0
    let d ← readByte d1 d0
    let e ← readByte e1 e0
    let f ← readByte f1 f0
    pure #v[a, b, c, d, e, f]
  | _ => none

/-! ### Command lines (R58, R59) -/

/-- R49: the mnemonics. -/
def mnemonicOf : Instr → String
  | .ccEnc _ _ => "CC.ENC"
  | .ccDec _ _ => "CC.DEC"
  | .rcEnc _ _ => "RC.ENC"
  | .rcDec _ _ => "RC.DEC"
  | .rcAuto _ _ => "RC.AUTO"

/-- R58: the operand store, by unit and `P` bit. -/
def storeWord (u : CoreUnit) (present : Bool) : String :=
  match u, present with
  | .cc, true => "rec"
  | .rc, true => "buf"
  | _, false => "null"

/-- R58: the argument in decimal. -/
def argumentOf : Instr → Int
  | .ccEnc _ key => key
  | .ccDec _ key => key
  | .rcEnc _ len => (len : Int)
  | .rcDec _ len => (len : Int)
  | .rcAuto _ len => (len : Int)

/-- R58: a command as a line. -/
def commandText (i : Instr) : String :=
  mnemonicOf i ++ " " ++ storeWord i.unit i.present ++ ", " ++ toString (argumentOf i)

/-- The text of a line before its comment (R58: `;` starts a comment). -/
def beforeComment (cs : List Char) : List Char := cs.takeWhile (fun c => decide (c ≠ ';'))

/-- The words of a line: runs of characters that are neither blank nor comma; a comma is a word (log 24). -/
def wordsOnto : List Char → List Char → List (List Char)
  | [], cur => if cur.isEmpty then [] else [cur.reverse]
  | c :: cs, cur =>
    let done := if cur.isEmpty then [] else [cur.reverse]
    if c = ' ' ∨ c = '\t' then done ++ wordsOnto cs []
    else if c = ',' then done ++ [','] :: wordsOnto cs []
    else wordsOnto cs (c :: cur)

/-- R58: the operand store word of a unit, read as the `P` bit. -/
def readStore (u : CoreUnit) (w : List Char) : Option Bool :=
  if w = (storeWord u true).toList then some true
  else if w = (storeWord u false).toList then some false
  else none

/-- R58, R59: the argument of a CC operation, `auto` standing for -1. -/
def readKey (w : List Char) : Option Int := if w = "auto".toList then some keyAuto else readInt w

/-- R49, R58: the operation a mnemonic and its operands name. -/
def readOperation (m store arg : List Char) : Option Instr :=
  if m = "CC.ENC".toList then (readStore .cc store).bind fun p => (readKey arg).map fun k => .ccEnc p k
  else if m = "CC.DEC".toList then (readStore .cc store).bind fun p => (readKey arg).map fun k => .ccDec p k
  else if m = "RC.ENC".toList then (readStore .rc store).bind fun p => (readNat arg).map fun n => .rcEnc p n
  else if m = "RC.DEC".toList then (readStore .rc store).bind fun p => (readNat arg).map fun n => .rcDec p n
  else if m = "RC.AUTO".toList then (readStore .rc store).bind fun p => (readNat arg).map fun n => .rcAuto p n
  else none

/-- R58: one command line; a field that does not fit the command word is no command (R51, R52). -/
def readCommand (line : String) : Option Instr :=
  match wordsOnto (beforeComment line.toList) [] with
  | [m, store, [','], arg] => (readOperation m store arg).filter Instr.wellFormed
  | _ => none

/-! ### Host directives (R59) -/

/-- `.rec`: the host writes the six bytes of a record. -/
def recDirective (r : Vector Byte 6) : List Event :=
  ([0, 1, 2, 3, 4, 5] : List (Fin 6)).map fun j => .hostWriteRecord j r[j]

/-- The host's writes of consecutive bytes from offset `i` on. -/
def writesFrom : Nat → List Byte → List Event
  | _, [] => []
  | i, b :: bs => .hostWriteBuf i b :: writesFrom (i + 1) bs

/-- `.buf n, <bytes>`: the host makes `BUF` a buffer of exactly these bytes. -/
def bufDirective (bytes : List Byte) : List Event :=
  .hostSetLen 0 :: .hostSetLen bytes.length :: writesFrom 0 bytes

/-- One line of a host program: a command, or the directive `.rec` with its record; a line with only a comment or
nothing is no move. `.buf` has no fixed text for its contents and `.expect` is no move (log 24). -/
def readLine (line : String) : Option (List Event) :=
  match wordsOnto (beforeComment line.toList) [] with
  | [] => some []
  | [m, hi, lo] => if m = ".rec".toList then (readRecord (hi ++ ' ' :: lo)).map recDirective else none
  | _ => (readCommand line).map fun i => [.call (encode i)]

end Sys2Proof.Machine
end

