-- ==== Sys2Proof/Safety.lean ====
section
/-! DEFINITION. What counts as a safe run: the invariant of the machine, the duties of the host before a command, and
what a command's outcome may depend on. -/

namespace Sys2Proof.Machine

/-- A unit's slot holds only a command of that unit, and one a command word can carry (R26, R44, R48). -/
def slotSound (u : CoreUnit) : Option Instr → Prop
  | none => True
  | some i => i.unit = u ∧ i.wellFormed = true

/-- The invariant every step keeps: `BUF` in canonical form with no byte outside 0..`LEN`-1 (R19, R37), and each unit
in progress with a command of its own (R44). -/
structure State.Inv (s : State) : Prop where
  bufSorted : Memory.wf s.buf
  bufInside : ∀ c ∈ s.buf, c.1 < s.len
  ccSound : slotSound .cc s.ccCommand
  rcSound : slotSound .rc s.rcCommand

/-- R29, R117: the host has written all six bytes of `REC` since reset. -/
def State.recordReady (s : State) : Prop := ∀ j : Fin 6, s.recordWritten[j] = true

/-- R118: the host has written the bytes 0..`n`-1 of `BUF` since reset. -/
def State.bufReady (s : State) (n : Nat) : Prop := ∀ i, i < n → (memRead s.buf i).isSome = true

/-- R117 to R120: the host's duties before a command with a present store. -/
def HostDuty (i : Instr) (s : State) : Prop :=
  match i with
  | .ccEnc _ _ => s.recordReady
  | .ccDec _ _ => s.recordReady
  | .rcEnc _ len => len = s.len ∧ s.bufReady len
  | .rcDec _ len => len = s.len ∧ s.bufReady len
  | .rcAuto _ len => len = s.len ∧ s.bufReady len

/-- R27, R28: what a command's outcome may depend on: the operand store of its unit, and for RC the constant tables. -/
def SameStore (u : CoreUnit) (s t : State) : Prop :=
  match u with
  | .cc => s.record = t.record ∧ s.recordWritten = t.recordWritten
  | .rc => s.buf = t.buf ∧ s.len = t.len ∧ s.seeds1 = t.seeds1 ∧ s.seeds2 = t.seeds2

end Sys2Proof.Machine
end

