-- ==== Sys2Proof/Certificates/Slice0/Obligations.lean ====
section
/-! DEFINITION. The statements for the provers, from the numbered rules of spec/. `recordReady`, `bufReady`, `Inv`,
`HostDuty` and `SameStore` stand in Sys2Proof/Safety.lean. -/

open Sys2Proof Sys2Proof.Machine

/-! ### Encoding -/

/-- Command words written out by R48 to R52 and the decoder vectors of 95_test_vectors.md decode as R49 says. -/
def Obligations.WrittenOutWordsDecode : Prop :=
  decode 0x100000005#36 = .ok (.ccEnc true 5) ∧
  decode 0x000000005#36 = .ok (.ccEnc false 5) ∧
  decode 0x1FFFFFFFF#36 = .ok (.ccEnc true (-1)) ∧
  decode 0x3FFFFFFFE#36 = .ok (.ccDec true (-2)) ∧
  decode 0x380000000#36 = .ok (.ccDec true (-2147483648)) ∧
  decode 0x5FFFFFFFF#36 = .ok (.rcEnc true 4294967295) ∧
  decode 0x700000200#36 = .ok (.rcDec true 512) ∧
  decode 0x900000400#36 = .ok (.rcAuto true 1024) ∧
  decode 0x800000000#36 = .ok (.rcAuto false 0) ∧
  decode 0xC12345678#36 = .error (.reservedOp 6#3)

/-- R48 to R52: a word with operation code 0 to 4 decodes to the command of that code, with `KEY` its argument as a
two's-complement integer or `LEN` its argument as an unsigned integer. -/
def Obligations.DecodeReadsTheFields : Prop :=
  ∀ (p : Bool) (arg : BitVec 32),
    decode (encodeFields 0#3 p arg) = .ok (.ccEnc p arg.toInt) ∧
    decode (encodeFields 1#3 p arg) = .ok (.ccDec p arg.toInt) ∧
    decode (encodeFields 2#3 p arg) = .ok (.rcEnc p arg.toNat) ∧
    decode (encodeFields 3#3 p arg) = .ok (.rcDec p arg.toNat) ∧
    decode (encodeFields 4#3 p arg) = .ok (.rcAuto p arg.toNat)

/-- Every well-formed command comes back from its word, with every operand at every value the encoding admits. -/
def Obligations.DecodeOfEncode : Prop :=
  ∀ i : Instr, i.wellFormed = true → decode (encode i) = .ok i

/-- R48 "There are no unused bits", R55: a word that decodes is the only word of its command, and its fields fit. -/
def Obligations.EncodeOfDecode : Prop :=
  ∀ (w : CmdWord) (i : Instr), decode w = .ok i → i.wellFormed = true ∧ encode i = w

/-- R54, R55: the words the decoder calls illegal are exactly those with operation code 5, 6 or 7, whatever the other
fields hold, and a step that issues one is refused by name. -/
def Obligations.ReservedCodesAreRefused : Prop :=
  ∀ w : CmdWord,
    ((∃ e, decode w = .error e) ↔ 5 ≤ (CmdWord.op w).toNat) ∧
    (5 ≤ (CmdWord.op w).toNat → ∀ (s : State) (rest : List Event),
      (s.agenda = .call w :: rest ∨ s.agenda = .issue w :: rest) →
        step s = .refused (.reservedOp (CmdWord.op w)))

/-! ### The step and the host -/

/-- R5, R18: when the next move is to issue a word that decodes to `i`, and `i`'s unit is idle, the step is `exec` of
`i`; all the step adds is that the move leaves the agenda. -/
def Obligations.StepRunsCalledCommand : Prop :=
  ∀ (s : State) (w : CmdWord) (rest : List Event) (i : Instr),
    s.agenda = .call w :: rest → decode w = .ok i → s.command i.unit = none →
      i.wellFormed = true ∧ step s = exec i { s with agenda := rest }

/-- The word placed by `withFetchWord` is the one the next step runs, with both units idle (log 17). -/
def Obligations.PlacedWordRunsNext : Prop :=
  ∀ (s : State) (nbits w : Nat) (i : Instr), decodeTableWord nbits w = some i →
    step (s.withFetchWord nbits w) = exec i { s with ccCommand := none, rcCommand := none }

/-- R35, R44: a command put in progress and then completed, with nothing between, does exactly what a command issued
and waited for does (log 11). -/
def Obligations.IssueThenCompleteIsCall : Prop :=
  ∀ (s : State) (w : CmdWord) (rest : List Event) (i : Instr),
    s.agenda = .issue w :: .complete i.unit :: rest → decode w = .ok i → s.command i.unit = none →
      ∃ t, step s = .next t ∧ t.command i.unit = some i ∧ t.record = s.record ∧ t.buf = s.buf ∧
        t.results = s.results ∧ step t = exec i { s with agenda := rest }

/-- R5, R6: the move that completes a unit runs the command in progress there; of an idle unit, which starts nothing of
its own, it changes nothing but the agenda (log 11). -/
def Obligations.CompletionMove : Prop :=
  ∀ (s : State) (u : CoreUnit) (rest : List Event), s.agenda = .complete u :: rest →
    (∀ i, s.command u = some i → step s = exec i ({ s with agenda := rest }.setCommand u none)) ∧
    (s.command u = none → step s = .next { s with agenda := rest })

/-- R6, R128: with no move planned an idle machine stays as it is, and a command in progress runs to its end (the CC
unit's first: the model's choice, log 12). -/
def Obligations.EmptyAgendaDrains : Prop :=
  ∀ s : State, s.agenda = [] →
    (s.ccCommand = none → s.rcCommand = none → step s = .next s) ∧
    (∀ i, s.ccCommand = some i → step s = exec i { s with ccCommand := none }) ∧
    (∀ i, s.ccCommand = none → s.rcCommand = some i → step s = exec i { s with rcCommand := none })

/-- R16, R19, R36, R130: the host writes and reads a store that no command holds. A write puts the value there, marks a
register written, and changes no other byte; a read changes nothing. Two things are the model's: a command in progress
with `P` = 0 holds no store (log 14), and the host's own read of a byte it has not written is no fault (log 18). -/
def Obligations.HostReachesFreeStores : Prop :=
  ∀ (s : State) (rest : List Event),
    (∀ (j : Fin 6) (v : Byte), s.agenda = .hostWriteRecord j v :: rest → s.storeHeld .cc = false →
      ∃ t, step s = .next t ∧ t.record[j] = v ∧ t.recordWritten[j] = true ∧
        (∀ k : Fin 6, k ≠ j → t.record[k] = s.record[k] ∧ t.recordWritten[k] = s.recordWritten[k]) ∧
        t = { s with record := t.record, recordWritten := t.recordWritten, agenda := rest }) ∧
    (∀ (i : Nat) (v : Byte), s.agenda = .hostWriteBuf i v :: rest → s.storeHeld .rc = false → i < s.len →
      ∃ t, step s = .next t ∧ memRead t.buf i = some v ∧ (∀ k, k ≠ i → memRead t.buf k = memRead s.buf k) ∧
        t = { s with buf := t.buf, agenda := rest }) ∧
    (∀ j : Fin 6, s.agenda = .hostReadRecord j :: rest → s.storeHeld .cc = false →
      step s = .next { s with agenda := rest }) ∧
    (∀ i : Nat, s.agenda = .hostReadBuf i :: rest → s.storeHeld .rc = false → i < s.len →
      step s = .next { s with agenda := rest })

/-- R20, R120, R130: the host changes `LEN`; the bytes below the new length stay, the others are gone (log 18). -/
def Obligations.HostChangesLength : Prop :=
  ∀ (s : State) (n : Nat) (rest : List Event), s.agenda = .hostSetLen n :: rest → s.storeHeld .rc = false →
    ∃ t, step s = .next t ∧ t.len = n ∧ (∀ i, i < n → memRead t.buf i = memRead s.buf i) ∧
      (∀ i, n ≤ i → memRead t.buf i = none) ∧ t = { s with len := n, buf := t.buf, agenda := rest }

/-- R43, R44, R121 (U5): while a command with `P` = 1 is in progress the host cannot reach its store, and while any
command is in progress its unit takes no other; each is refused by name (log 14). -/
def Obligations.BusyUnitsAreExclusive : Prop :=
  ∀ (s : State) (rest : List Event) (c : Instr),
    (s.ccCommand = some c → c.present = true → ∀ (j : Fin 6) (v : Byte),
      (s.agenda = .hostWriteRecord j v :: rest ∨ s.agenda = .hostReadRecord j :: rest) →
        step s = .refused (.storeInUse .cc)) ∧
    (s.rcCommand = some c → c.present = true → ∀ (n i : Nat) (v : Byte),
      (s.agenda = .hostSetLen n :: rest ∨ s.agenda = .hostWriteBuf i v :: rest ∨ s.agenda = .hostReadBuf i :: rest) →
        step s = .refused (.storeInUse .rc)) ∧
    (∀ (w : CmdWord) (i : Instr), decode w = .ok i → s.command i.unit = some c →
      (s.agenda = .call w :: rest ∨ s.agenda = .issue w :: rest) → step s = .refused (.unitBusy i.unit))

/-- R29, R113, R114: a reset between commands keeps the tables and leaves both stores unwritten and the units idle (the
values in `REC` and `LEN` are the model's, logs 1, 2 and 15); a reset during a command has no meaning and is refused. -/
def Obligations.ResetMove : Prop :=
  ∀ (s : State) (rest : List Event), s.agenda = .reset :: rest →
    (s.ccCommand = none → s.rcCommand = none →
      ∃ t, step s = .next t ∧ t.seeds1 = s.seeds1 ∧ t.seeds2 = s.seeds2 ∧ t.ccCommand = none ∧ t.rcCommand = none ∧
        (∀ j : Fin 6, t.recordWritten[j] = false) ∧ (∀ i, memRead t.buf i = none) ∧ t.results = s.results ∧
        t.agenda = rest) ∧
    ((s.ccCommand.isSome = true ∨ s.rcCommand.isSome = true) → step s = .refused .resetDuringCommand)

/-- R29, R115: after reset the tables hold their constants, the units are idle, no result is held, and no byte of either
store has been written by the host. -/
def Obligations.ResetLeaves : Prop :=
  (∀ t : Fin blockSize, State.reset.seeds1[t] = Config.hardware.seeds1 t ∧
    State.reset.seeds2[t] = Config.hardware.seeds2 t) ∧
  State.reset.ccCommand = none ∧ State.reset.rcCommand = none ∧ State.reset.results = [] ∧
  (∀ j : Fin 6, State.reset.recordWritten[j] = false) ∧ ∀ i, memRead State.reset.buf i = none

/-! ### Invariants of every step -/

/-- The invariant holds at reset. -/
def Obligations.InvariantAtReset : Prop := State.reset.Inv

/-- Every step keeps the invariant: `BUF` stays in canonical form with no byte outside 0..`LEN`-1, and a unit in
progress has a well-formed command of its own. -/
def Obligations.StepKeepsInvariant : Prop :=
  ∀ s t : State, s.Inv → step s = .next t → t.Inv

/-- R22: no operation, no move of the host and no reset writes a seed table. -/
def Obligations.NothingWritesTheTables : Prop :=
  ∀ s t : State, step s = .next t → t.seeds1 = s.seeds1 ∧ t.seeds2 = s.seeds2

/-- R27, R100: a step presents at most one result, after all earlier ones, and only at the end of a command: the command
called by the head of the agenda, or the one in progress in the unit that the head completes or that the drain ends. The
result is that command's, of its unit, by the outcome table; and its unit is idle afterwards (R105). -/
def Obligations.ResultsArePresentedOnce : Prop :=
  ∀ s t : State, s.Inv → step s = .next t →
    t.results = s.results ∨
      ∃ i : Instr, t.results = s.results ++ [⟨i.unit, verdict s.record[(0 : Fin 6)] i⟩] ∧ t.command i.unit = none ∧
        ((∃ w rest, s.agenda = .call w :: rest ∧ decode w = .ok i) ∨
          (s.command i.unit = some i ∧ (s.agenda = [] ∨ ∃ rest, s.agenda = .complete i.unit :: rest)))

/-! ### What every command does -/

/-- R98, R103: the result of a command that ends is the first row of the outcome table whose condition holds. -/
def Obligations.ResultFollowsOutcomeTable : Prop :=
  ∀ (i : Instr) (s t : State), exec i s = .next t →
    t.results = s.results ++ [⟨i.unit, verdict s.record[(0 : Fin 6)] i⟩]

/-- R16, R69, R73, R104: the frame of `CC.ENC` and `CC.DEC`. Nothing but `REC` and the results changes; with `P` = 0
nothing of `REC`; when the result is an error, not bytes 1 to 5. -/
def Obligations.CodeCipherFrame : Prop :=
  ∀ (p : Bool) (key : Int) (s t : State) (i : Instr), i = .ccEnc p key ∨ i = .ccDec p key → exec i s = .next t →
    t = { s with record := t.record, results := t.results } ∧
    (p = false → t.record = s.record) ∧
    (verdict s.record[(0 : Fin 6)] i ≠ .ok → ∀ j : Fin 6, j ≠ 0 → t.record[j] = s.record[j])

/-- R16, R19, R82, R92: the frame of `RC.ENC`, `RC.DEC` and `RC.AUTO`. Nothing but `BUF` and the results changes; every
offset that is not below `LEN` reads as before, and on an error every offset does. -/
def Obligations.RomCipherFrame : Prop :=
  ∀ (p : Bool) (n : Nat) (s t : State) (i : Instr), i = .rcEnc p n ∨ i = .rcDec p n ∨ i = .rcAuto p n →
    exec i s = .next t →
      t = { s with buf := t.buf, results := t.results } ∧
      (∀ a, n ≤ a → memRead t.buf a = memRead s.buf a) ∧
      (p = false ∨ n < 512 → t.buf = s.buf)

/-- R27, R28: what a command does depends on the command, on its own operand store and on the constant tables: on two
states with the same store it leaves the same store and presents the same result, whatever ran before. -/
def Obligations.CommandsDependOnTheirStoreOnly : Prop :=
  ∀ (i : Instr) (s s' t : State), SameStore i.unit s s' → exec i s = .next t →
    ∃ t', exec i s' = .next t' ∧ SameStore i.unit t t' ∧
      ∃ r, t.results = s.results ++ [r] ∧ t'.results = s'.results ++ [r]

/-- R44: a CC command and an RC command commute: if they end in one order, whichever it is, they end in the other, leave
the same stores, and each unit presents the same results. -/
def Obligations.UnitsAreIndependent : Prop :=
  ∀ (c r i j : Instr) (s t u : State), c.unit = .cc → r.unit = .rc → (i = c ∧ j = r ∨ i = r ∧ j = c) →
    exec i s = .next t → exec j t = .next u →
      ∃ t' u', exec j s = .next t' ∧ exec i t' = .next u' ∧ u' = { u with results := u'.results } ∧
        ∀ v : CoreUnit, u'.results.filter (fun r => r.unit = v) = u.results.filter (fun r => r.unit = v)

/-- R116 to R120, R128: a command whose host has done its duty ends with a result: it meets no fault and no refusal. -/
def Obligations.DutifulHostGetsAResult : Prop :=
  ∀ (i : Instr) (s : State), s.Inv → (i.present = true → HostDuty i s) → ∃ t, exec i s = .next t

/-! ### Code cipher -/

/-- R69: with `P` = 0 a CC command reads nothing, writes nothing and ends with `INVALID_INPUT`, whatever the key and
whatever has been written. -/
def Obligations.AbsentRecordIsInvalid : Prop :=
  ∀ (key : Int) (s : State),
    exec (.ccEnc false key) s = .next { s with results := s.results ++ [⟨.cc, .invalidInput⟩] } ∧
    exec (.ccDec false key) s = .next { s with results := s.results ++ [⟨.cc, .invalidInput⟩] }

/-- R62, R63, R64, R71: `CC.ENC` with a concrete key: byte 0 is XORed with the key, and byte `j` in 1..5 becomes
`ENC_STEP` of its original value, the masked byte 0 and the original bytes between; the result is `OK`. -/
def Obligations.CcEncClosedForm : Prop :=
  ∀ (s : State) (k : Key), s.recordReady →
    ∃ t, exec (.ccEnc true k.toInt) s = .next t ∧
      t.record[(0 : Fin 6)] = s.record[(0 : Fin 6)] ^^^ k.toByte ∧
      (∀ j : Fin 6, j ≠ 0 → t.record[j] = Config.hardware.formulas.encStep k j s.record[j]
        ((s.record[(0 : Fin 6)] ^^^ k.toByte) :: (s.record.toList.take j).drop 1)) ∧
      t = { s with record := t.record, results := s.results ++ [⟨.cc, .ok⟩] }

/-- R62, R63, R64, R72: `CC.DEC` with an explicit concrete key: byte 0 is XORed with the key, and byte `j` in 1..5
becomes `DEC_STEP` of its old value and the already restored bytes below; the result is `OK`. -/
def Obligations.CcDecClosedForm : Prop :=
  ∀ (s : State) (k : Key), s.recordReady →
    ∃ t, exec (.ccDec true k.toInt) s = .next t ∧
      t.record[(0 : Fin 6)] = s.record[(0 : Fin 6)] ^^^ k.toByte ∧
      (∀ j : Fin 6, j ≠ 0 → t.record[j] = Config.hardware.formulas.decStep k j s.record[j] (t.record.toList.take j)) ∧
      t = { s with record := t.record, results := s.results ++ [⟨.cc, .ok⟩] }

/-- R70, R72, R79: `CC.DEC` with auto, all sixteen nibbles. A nibble of 4 to 7 decrypts as the explicit key of that
value does; any other ends with `UNSUPPORTED_KEY`. In both cases the low nibble of byte 0 is cleared, and in the second
the other bytes stay. -/
def Obligations.CcDecAutoByNibble : Prop :=
  ∀ s : State,
    (∀ k : Key, s.recordReady → s.record[(0 : Fin 6)] &&& 0x0F#8 = k.toByte →
      exec (.ccDec true (-1)) s = exec (.ccDec true k.toInt) s ∧
      ∃ t, exec (.ccDec true (-1)) s = .next t ∧ t.record[(0 : Fin 6)] = s.record[(0 : Fin 6)] &&& 0xF0#8 ∧
        t.results = s.results ++ [⟨.cc, .ok⟩]) ∧
    (s.recordWritten[(0 : Fin 6)] = true → (∀ k : Key, s.record[(0 : Fin 6)] &&& 0x0F#8 ≠ k.toByte) →
      exec (.ccDec true (-1)) s = .next { s with
        record := s.record.set 0 (s.record[(0 : Fin 6)] &&& 0xF0#8),
        results := s.results ++ [⟨.cc, .unsupportedKey⟩] })

/-- R70, R73: the key failures with a present record. `CC.ENC` with auto ends with `INVALID_INPUT`; either operation with
any other key outside 4..7 ends with `UNSUPPORTED_KEY`. Bytes 1 to 5 stay; byte 0 stays or is XORed with the key's low
byte, as `CC_FAIL_WRITES_B0` says (log 8). -/
def Obligations.KeyFailuresLeave : Prop :=
  ∀ (s : State) (key : Int), s.recordWritten[(0 : Fin 6)] = true → ¬ (4 ≤ key ∧ key ≤ 7) →
    let left : Vector Byte 6 :=
      if Config.hardware.ccFailWritesB0 then s.record.set 0 (s.record[(0 : Fin 6)] ^^^ BitVec.ofInt 8 key) else s.record
    exec (.ccEnc true key) s = .next { s with
      record := left,
      results := s.results ++ [⟨.cc, if key = -1 then .invalidInput else .unsupportedKey⟩] } ∧
    (key ≠ -1 → exec (.ccDec true key) s = .next { s with
      record := left, results := s.results ++ [⟨.cc, .unsupportedKey⟩] })

/-- R29, R117 (U9): a CC command that reads a register the host has not written faults, and names such a register.
Byte 0 is read whenever the record is present (log 4); the others once the key is known to be valid, whether the command
names it or the low nibble of byte 0 does. Which register a fault names is log 5. -/
def Obligations.UnwrittenRecordFaults : Prop :=
  ∀ (s : State) (k : Key) (key : Int) (j : Fin 6),
    (s.recordWritten[(0 : Fin 6)] = false →
      exec (.ccEnc true key) s = .fault (.unwrittenRecord 0) ∧
      exec (.ccDec true key) s = .fault (.unwrittenRecord 0)) ∧
    (s.recordWritten[j] = false → ∃ m m' : Fin 6,
      exec (.ccEnc true k.toInt) s = .fault (.unwrittenRecord m) ∧ s.recordWritten[m] = false ∧
      exec (.ccDec true k.toInt) s = .fault (.unwrittenRecord m') ∧ s.recordWritten[m'] = false) ∧
    (s.recordWritten[j] = false → s.record[(0 : Fin 6)] &&& 0x0F#8 = k.toByte → ∃ m : Fin 6,
      exec (.ccDec true (-1)) s = .fault (.unwrittenRecord m) ∧ s.recordWritten[m] = false)

/-- R62: `CC.ENC` and `CC.DEC` with an explicit concrete key change only bits 0 to 2 of byte 0. -/
def Obligations.ExplicitKeyKeepsHighBits : Prop :=
  ∀ (s t : State) (p : Bool) (k : Key) (b : Nat), 3 ≤ b →
    (exec (.ccEnc p k.toInt) s = .next t ∨ exec (.ccDec p k.toInt) s = .next t) →
      t.record[(0 : Fin 6)].getLsbD b = s.record[(0 : Fin 6)].getLsbD b

/-- R74: for every concrete key and every record, encrypting and then decrypting with the key returns `OK` twice and
restores the record; and it does so for every value of `CODE_FORMULAS` that meets R67. -/
def Obligations.CodeCipherRoundTrip : Prop :=
  (∀ (s : State) (k : Key), s.recordReady →
    ∃ t u, exec (.ccEnc true k.toInt) s = .next t ∧ exec (.ccDec true k.toInt) t = .next u ∧
      u = { s with results := s.results ++ [⟨.cc, .ok⟩, ⟨.cc, .ok⟩] }) ∧
  ∀ (f : CodeFormulas) (k : Key) (r : Vector Byte 6), decryptRecord f k (encryptRecord f k r) = r

/-- R77: the other order: decrypting and then encrypting with a concrete key also restores the record, for every value
of `CODE_FORMULAS`. -/
def Obligations.CodeCipherReverseRoundTrip : Prop :=
  (∀ (s : State) (k : Key), s.recordReady →
    ∃ t u, exec (.ccDec true k.toInt) s = .next t ∧ exec (.ccEnc true k.toInt) t = .next u ∧
      u = { s with results := s.results ++ [⟨.cc, .ok⟩, ⟨.cc, .ok⟩] }) ∧
  ∀ (f : CodeFormulas) (k : Key) (r : Vector Byte 6), encryptRecord f k (decryptRecord f k r) = r

/-- R75, C2: encrypting with a key and then decrypting with auto always ends, and restores the record exactly when the
low nibble of byte 0 was zero. -/
def Obligations.AutoRoundTripIffNibbleZero : Prop :=
  ∀ (s : State) (k : Key), s.recordReady →
    ∃ t u, exec (.ccEnc true k.toInt) s = .next t ∧ exec (.ccDec true (-1)) t = .next u ∧
      (u.record = s.record ↔ s.record[(0 : Fin 6)] &&& 0x0F#8 = 0#8)

/-- R106: retrying a failed command. `CC.DEC` with auto that failed fails again and changes nothing more; an RC command
that failed fails again and changes nothing; under a configuration with `CC_FAIL_WRITES_B0` true, retrying a failed
explicit key flips the same bits of byte 0 back. -/
def Obligations.RetryingAFailure : Prop :=
  ∀ (s t : State) (key : Int) (p : Bool) (n : Nat) (i : Instr),
    (exec (.ccDec true (-1)) s = .next t → t.results = s.results ++ [⟨.cc, .unsupportedKey⟩] →
      exec (.ccDec true (-1)) t = .next { t with results := t.results ++ [⟨.cc, .unsupportedKey⟩] }) ∧
    ((i = .rcEnc p n ∨ i = .rcDec p n ∨ i = .rcAuto p n) → exec i s = .next t →
      t.results = s.results ++ [⟨.rc, .invalidInput⟩] →
        exec i t = .next { s with results := s.results ++ [⟨.rc, .invalidInput⟩, ⟨.rc, .invalidInput⟩] }) ∧
    (∀ cfg : Config, cfg.ccFailWritesB0 = true → ¬ (4 ≤ key ∧ key ≤ 7) → key ≠ -1 →
      (ccEncrypt cfg p key s = .next t → ∃ u, ccEncrypt cfg p key t = .next u ∧ u.record = s.record) ∧
      (ccDecrypt cfg p key s = .next t → ∃ u, ccDecrypt cfg p key t = .next u ∧ u.record = s.record))

/-! ### ROM cipher -/

/-- R82, R92: with `P` = 0 or `LEN` below 512 an RC command reads nothing, writes nothing and ends with
`INVALID_INPUT`. -/
def Obligations.ShortOrAbsentBufferIsInvalid : Prop :=
  ∀ (p : Bool) (n : Nat) (s : State), p = false ∨ n < 512 →
    exec (.rcEnc p n) s = .next { s with results := s.results ++ [⟨.rc, .invalidInput⟩] } ∧
    exec (.rcDec p n) s = .next { s with results := s.results ++ [⟨.rc, .invalidInput⟩] } ∧
    exec (.rcAuto p n) s = .next { s with results := s.results ++ [⟨.rc, .invalidInput⟩] }

/-- R21, R38: both tables are indexed by the offset modulo 512, so offsets 512 apart use the same pair of entries, and a
last partial block of a buffer of `n` bytes uses entries below `n mod 512`. -/
def Obligations.TablesAreIndexedModulo512 : Prop :=
  ∀ (s : State) (i n : Nat),
    (∃ h : i % 512 < 512, s.seed1 i = s.seeds1[i % 512] ∧ s.seed2 i = s.seeds2[i % 512]) ∧
    s.seed1 (i + 512) = s.seed1 i ∧ s.seed2 (i + 512) = s.seed2 i ∧
    (i < n → n / 512 * 512 ≤ i → i % 512 < n % 512)

/-- R83: `RC.ENC`, operation code 2. The input check decides between `INVALID_INPUT` and `OK`; on `OK` the byte at every
offset below `LEN` becomes `(b -8 SEEDS2[i mod 512]) xor SEEDS1[i mod 512]`, no borrow kept; with the entries of R83's
example 0x20 becomes 0xFF; a trailing partial block uses the entries below `LEN mod 512`. -/
def Obligations.RcEncPerByte : Prop :=
  ∀ (s : State) (p : Bool) (n : Nat),
    (p = false ∨ n < 512 →
      exec (.rcEnc p n) s = .next { s with results := s.results ++ [⟨.rc, .invalidInput⟩] }) ∧
    (n < 2 ^ 32 → decode (encodeFields 2#3 p (BitVec.ofNat 32 n)) = .ok (.rcEnc p n)) ∧
    (∀ i, i < n → n / 512 * 512 ≤ i → i % 512 < n % 512) ∧ (0#8 - 1#8 : Byte) = 0xFF#8 ∧
    (p = true → 512 ≤ n → s.Inv → n = s.len → s.bufReady n →
      ∃ t, exec (.rcEnc p n) s = .next t ∧
        (∀ (i : Nat) (b : Byte) (h : i % 512 < 512), i < n → memRead s.buf i = some b →
          memRead t.buf i = some ((b - s.seeds2[i % 512]) ^^^ s.seeds1[i % 512])) ∧
        (s.seeds2[0] = 0x30#8 → s.seeds1[0] = 0x0F#8 → memRead s.buf 0 = some 0x20#8 →
          memRead t.buf 0 = some 0xFF#8) ∧
        t = { s with buf := t.buf, results := s.results ++ [⟨.rc, .ok⟩] })

/-- R84: `RC.DEC`, operation code 3. The input check decides between `INVALID_INPUT` and `OK`; on `OK` the byte at every
offset below `LEN` becomes `(c xor SEEDS1[i mod 512]) +8 SEEDS2[i mod 512]`, no carry kept; with the entries of R84's
example 0xFF becomes 0x20; a trailing partial block uses the entries below `LEN mod 512`. -/
def Obligations.RcDecPerByte : Prop :=
  ∀ (s : State) (p : Bool) (n : Nat),
    (p = false ∨ n < 512 →
      exec (.rcDec p n) s = .next { s with results := s.results ++ [⟨.rc, .invalidInput⟩] }) ∧
    (n < 2 ^ 32 → decode (encodeFields 3#3 p (BitVec.ofNat 32 n)) = .ok (.rcDec p n)) ∧
    (∀ i, i < n → n / 512 * 512 ≤ i → i % 512 < n % 512) ∧ (0xFF#8 + 1#8 : Byte) = 0#8 ∧
    (p = true → 512 ≤ n → s.Inv → n = s.len → s.bufReady n →
      ∃ t, exec (.rcDec p n) s = .next t ∧
        (∀ (i : Nat) (c : Byte) (h : i % 512 < 512), i < n → memRead s.buf i = some c →
          memRead t.buf i = some ((c ^^^ s.seeds1[i % 512]) + s.seeds2[i % 512])) ∧
        (s.seeds1[0] = 0x0F#8 → s.seeds2[0] = 0x30#8 → memRead s.buf 0 = some 0xFF#8 →
          memRead t.buf 0 = some 0x20#8) ∧
        t = { s with buf := t.buf, results := s.results ++ [⟨.rc, .ok⟩] })

/-- R31: the four bytes at 0x10 are read as one word, the byte at the lowest offset the least significant; 53 6F 6E 79
read so are 0x796E6F53. -/
def Obligations.SignatureIsLittleEndian : Prop :=
  (∀ (s : State) (b0 b1 b2 b3 : Byte), s.readBuf 0x10 = .ok b0 → s.readBuf 0x11 = .ok b1 →
    s.readBuf 0x12 = .ok b2 → s.readBuf 0x13 = .ok b3 →
      ∃ w, s.readBufWord 0x10 = .ok w ∧
        w.toNat = b0.toNat + 256 * b1.toNat + 65536 * b2.toNat + 16777216 * b3.toNat ∧
        (w = 0x796E6F53#32 ↔ b0 = 0x53#8 ∧ b1 = 0x6F#8 ∧ b2 = 0x6E#8 ∧ b3 = 0x79#8))

/-- R86: `RC.AUTO` on a buffer the host has written ends, and does exactly what `RC.ENC` does when the bytes at
0x10..0x13 are 53 6F 6E 79, and exactly what `RC.DEC` does on every other buffer. -/
def Obligations.RcAutoChoosesDirection : Prop :=
  ∀ (s : State) (n : Nat), 512 ≤ n → s.Inv → n = s.len → s.bufReady n →
    (∃ t, exec (.rcAuto true n) s = .next t ∧ t.results = s.results ++ [⟨.rc, .ok⟩]) ∧
    ((memRead s.buf 0x10 = some 0x53#8 ∧ memRead s.buf 0x11 = some 0x6F#8 ∧ memRead s.buf 0x12 = some 0x6E#8 ∧
        memRead s.buf 0x13 = some 0x79#8) →
      exec (.rcAuto true n) s = exec (.rcEnc true n) s) ∧
    (¬ (memRead s.buf 0x10 = some 0x53#8 ∧ memRead s.buf 0x11 = some 0x6F#8 ∧ memRead s.buf 0x12 = some 0x6E#8 ∧
        memRead s.buf 0x13 = some 0x79#8) →
      exec (.rcAuto true n) s = exec (.rcDec true n) s)

/-- R88: for every buffer of 512 bytes or more, `RC.ENC` and then `RC.DEC` with the same `LEN` returns `OK` twice and
leaves the buffer as it was, for every value of the tables. -/
def Obligations.RomCipherRoundTrip : Prop :=
  ∀ (s : State) (n : Nat), 512 ≤ n → s.Inv → n = s.len → s.bufReady n →
    ∃ t u, exec (.rcEnc true n) s = .next t ∧ exec (.rcDec true n) t = .next u ∧
      u = { s with results := s.results ++ [⟨.rc, .ok⟩, ⟨.rc, .ok⟩] }

/-- R89: the other order restores the buffer too. -/
def Obligations.RomCipherReverseRoundTrip : Prop :=
  ∀ (s : State) (n : Nat), 512 ≤ n → s.Inv → n = s.len → s.bufReady n →
    ∃ t u, exec (.rcDec true n) s = .next t ∧ exec (.rcEnc true n) t = .next u ∧
      u = { s with results := s.results ++ [⟨.rc, .ok⟩, ⟨.rc, .ok⟩] }

/-- R85: the new byte at an offset depends on the old byte there and on the tables at the offset modulo 512, and on
nothing else: not on `LEN`, not on another byte. -/
def Obligations.RomCipherIsPerOffset : Prop :=
  ∀ (s s' t t' : State) (n n' i k : Nat), s.seeds1 = s'.seeds1 → s.seeds2 = s'.seeds2 → 512 ≤ n → 512 ≤ n' →
    i < n → k < n' → i % 512 = k % 512 → memRead s.buf i = memRead s'.buf k →
      ((exec (.rcEnc true n) s = .next t → exec (.rcEnc true n') s' = .next t' →
          memRead t.buf i = memRead t'.buf k) ∧
        (exec (.rcDec true n) s = .next t → exec (.rcDec true n') s' = .next t' →
          memRead t.buf i = memRead t'.buf k))

/-- R91: `RC.AUTO` twice from a buffer with the signature: the first command encrypts, and the second restores the
buffer unless the encrypted bytes at 0x10..0x13 are the signature again, in which case it encrypts a second time. -/
def Obligations.AutoTwiceFromSignature : Prop :=
  ∀ (s : State) (n : Nat), 512 ≤ n → s.Inv → n = s.len → s.bufReady n → s.readBufWord 0x10 = .ok 0x796E6F53#32 →
    ∃ t u, exec (.rcAuto true n) s = .next t ∧ exec (.rcAuto true n) t = .next u ∧
      (t.readBufWord 0x10 ≠ .ok 0x796E6F53#32 → u.buf = s.buf) ∧
      (t.readBufWord 0x10 = .ok 0x796E6F53#32 → exec (.rcAuto true n) t = exec (.rcEnc true n) t)

/-- R90: the transform of `RC.ENC` is not its own inverse in general: with the entries of R83's example it takes 0x20 to
0xFF and 0xFF to 0xC0. But with `s1` = 0xFF, and with `s2` = 0x00, encrypting a byte twice restores it. -/
def Obligations.RomEncryptTwice : Prop :=
  romEncByte 0x0F#8 0x30#8 0x20#8 = 0xFF#8 ∧ romEncByte 0x0F#8 0x30#8 0xFF#8 = 0xC0#8 ∧
  (∀ s2 b : Byte, romEncByte 0xFF#8 s2 (romEncByte 0xFF#8 s2 b) = b) ∧
  ∀ s1 b : Byte, romEncByte s1 0#8 (romEncByte s1 0#8 b) = b

/-- R90: nor is the transform of `RC.DEC`: with the same entries it takes 0x20 to 0x5F and 0x5F to 0x80. But with
`s1` = 0xFF, and with `s2` = 0x00, decrypting a byte twice restores it. -/
def Obligations.RomDecryptTwice : Prop :=
  romDecByte 0x0F#8 0x30#8 0x20#8 = 0x5F#8 ∧ romDecByte 0x0F#8 0x30#8 0x5F#8 = 0x80#8 ∧
  (∀ s2 c : Byte, romDecByte 0xFF#8 s2 (romDecByte 0xFF#8 s2 c) = c) ∧
  ∀ s1 c : Byte, romDecByte s1 0#8 (romDecByte s1 0#8 c) = c

/-- R29, R118 (U9): an RC command past its input check that meets a byte the host has not written faults: `RC.ENC` and
`RC.DEC` at the least such offset, `RC.AUTO` at some such offset (which one a fault names is log 5). -/
def Obligations.UnwrittenBufferFaults : Prop :=
  ∀ (s : State) (n i : Nat), 512 ≤ n → s.Inv → n = s.len → i < n → memRead s.buf i = none → s.bufReady i →
    exec (.rcEnc true n) s = .fault (.unwrittenBuf i) ∧ exec (.rcDec true n) s = .fault (.unwrittenBuf i) ∧
    ∃ m, exec (.rcAuto true n) s = .fault (.unwrittenBuf m) ∧ m < n ∧ memRead s.buf m = none

/-- R120 (U11): an RC command past its input check whose `LEN` is not the size of the host's buffer has no meaning and
is refused by name (log 9). -/
def Obligations.WrongLengthIsRefused : Prop :=
  ∀ (s : State) (n : Nat), 512 ≤ n → n ≠ s.len →
    exec (.rcEnc true n) s = .refused (.lenMismatch n s.len) ∧
    exec (.rcDec true n) s = .refused (.lenMismatch n s.len) ∧
    exec (.rcAuto true n) s = .refused (.lenMismatch n s.len)

/-! ### Notation -/

/-- R60: a record written in its text form reads back as itself; so does the scenario record of the document, in either
case. -/
def Obligations.RecordTextReadsBack : Prop :=
  (∀ r : Vector Byte 6, readRecord (recordText r).toList = some r) ∧
  recordText #v[0x01#8, 0x23#8, 0x45#8, 0x67#8, 0x89#8, 0xAB#8] = "01234567 89AB" ∧
  readRecord "01234567 89ab".toList = some #v[0x01#8, 0x23#8, 0x45#8, 0x67#8, 0x89#8, 0xAB#8]
end

