-- ==== Sys2Proof/Laws/Config.lean ====
section
/-! SUPPORT. The laws of the open parameter `CODE_FORMULAS` (R66 to R68), and that its form in `Config` leaves no value
of it out. -/

namespace Sys2Proof

theorem Key.toInt_ne_auto (k : Key) : k.toInt ≠ keyAuto := by cases k <;> decide

@[simp] theorem maskLow_nil (k : Key) : maskLow k [] = [] := rfl

@[simp] theorem maskLow_cons (k : Key) (q : Byte) (qs : List Byte) :
    maskLow k (q :: qs) = (q ^^^ k.toByte) :: qs := rfl

@[simp] theorem maskLow_length (k : Key) (low : List Byte) : (maskLow k low).length = low.length := by
  cases low <;> rfl

/-- The byte-0 mask is its own inverse (R62). -/
@[simp] theorem maskLow_maskLow (k : Key) (low : List Byte) : maskLow k (maskLow k low) = low := by
  cases low <;> simp

/-- R68 (c): the encrypt step is injective in the byte it replaces. -/
theorem CodeFormulas.encStep_injective (f : CodeFormulas) (k : Key) (j : Nat) (low : List Byte) (h1 : 1 ≤ j)
    (h5 : j ≤ 5) (hl : low.length = j) : Function.Injective fun x => f.encStep k j x low := by
  intro x y hxy
  have hx := f.inverse k j x (maskLow k low) h1 h5 (by simpa using hl)
  have hy := f.inverse k j y (maskLow k low) h1 h5 (by simpa using hl)
  simp only [maskLow_maskLow] at hx hy hxy
  rw [← hx, ← hy, hxy]

/-- R68 (c): the decrypt step is also a right inverse of the encrypt step. -/
theorem CodeFormulas.inverse_right (f : CodeFormulas) (k : Key) (j : Nat) (y : Byte) (low : List Byte) (h1 : 1 ≤ j)
    (h5 : j ≤ 5) (hl : low.length = j) : f.encStep k j (f.decStep k j y low) (maskLow k low) = y := by
  have hinj := f.encStep_injective k j (maskLow k low) h1 h5 (by simpa using hl)
  obtain ⟨x, rfl⟩ := Finite.surjective_of_injective hinj y
  simp only [f.inverse k j x low h1 h5 hl]

/-- R68 (c): a value of `CODE_FORMULAS` is one permutation of the bytes for each key, position and lower bytes: every
value has the form that `Config.hardware` takes, so the open constant leaves none out (log 6). -/
theorem CodeFormulas.eq_ofPerm (f : CodeFormulas) :
    ∃ p : Key → Nat → List Byte → Equiv.Perm Byte, ∀ (k : Key) (j : Nat) (low : List Byte), 1 ≤ j → j ≤ 5 →
      low.length = j → ∀ x : Byte,
        (CodeFormulas.ofPerm p).encStep k j x low = f.encStep k j x low ∧
        (CodeFormulas.ofPerm p).decStep k j x low = f.decStep k j x low := by
  classical
  let good (k : Key) (j : Nat) (low : List Byte) : Prop := Function.Bijective fun x => f.encStep k j x low
  refine ⟨fun k j low => if h : good k j low then Equiv.ofBijective _ h else Equiv.refl _, ?_⟩
  intro k j low h1 h5 hl x
  have hb : ∀ l : List Byte, l.length = j → good k j l := fun l hl' =>
    Finite.injective_iff_bijective.mp (f.encStep_injective k j l h1 h5 hl')
  refine ⟨by simp [CodeFormulas.ofPerm, hb low hl], ?_⟩
  have hm := hb (maskLow k low) (by simpa using hl)
  simp only [CodeFormulas.ofPerm, hm, dite_true, Equiv.symm_apply_eq, Equiv.ofBijective_apply]
  exact (f.inverse_right k j x low h1 h5 hl).symm

end Sys2Proof
end

