-- ==== Sys2Proof/Laws/Memory.lean ====
section
/-! SUPPORT. The laws of `BUF` as a list of cells: read after write, the canonical form, the map over offsets, and the
search for an unwritten byte. -/

namespace Sys2Proof.Machine

@[simp] theorem memRead_nil (i : Nat) : memRead [] i = none := rfl

theorem memRead_cons (c : Host.Cell) (m : List Host.Cell) (i : Nat) :
    memRead (c :: m) i = if c.1 = i then some c.2 else memRead m i := rfl

/-- An offset no entry names reads as unwritten. -/
theorem memRead_eq_none (m : List Host.Cell) (i : Nat) (h : ∀ c ∈ m, c.1 ≠ i) : memRead m i = none := by
  induction m with
  | nil => rfl
  | cons c m ih =>
    rw [memRead_cons, if_neg (h c List.mem_cons_self), ih fun d hd => h d (List.mem_cons_of_mem _ hd)]

/-- A byte that reads as a value is an entry of the list. -/
theorem mem_of_memRead (m : List Host.Cell) (i : Nat) (b : Byte) (h : memRead m i = some b) : (i, b) ∈ m := by
  induction m with
  | nil => simp at h
  | cons c m ih =>
    rw [memRead_cons] at h
    split at h
    · rename_i hc
      have : c = (i, b) := by cases c; simp_all
      exact this ▸ List.mem_cons_self
    · exact List.mem_cons_of_mem _ (ih h)

/-- A read after a write gives the value written there and the old value everywhere else. -/
theorem memRead_memWrite (m : List Host.Cell) (i k : Nat) (v : Byte) :
    memRead (memWrite m i v) k = if k = i then some v else memRead m k := by
  induction m with
  | nil => simp [memWrite, memRead_cons, eq_comm]
  | cons c m ih =>
    simp only [memWrite]
    split
    · simp [memRead_cons, eq_comm]
    · split
      · rename_i h
        simp only [memRead_cons, h]
        by_cases hk : k = i
        · simp [hk]
        · simp [hk, Ne.symm hk]
      · rename_i h
        simp only [memRead_cons, ih]
        by_cases hk : k = i
        · subst hk
          simp [h]
        · simp [hk]

theorem mem_memWrite (m : List Host.Cell) (i : Nat) (v : Byte) (c : Host.Cell) (h : c ∈ memWrite m i v) :
    c = (i, v) ∨ c ∈ m := by
  induction m with
  | nil => simpa [memWrite] using h
  | cons d m ih =>
    simp only [memWrite] at h
    split at h
    · simpa using h
    · split at h
      · rcases List.mem_cons.mp h with h | h
        · exact .inl h
        · exact .inr (List.mem_cons_of_mem _ h)
      · rcases List.mem_cons.mp h with h | h
        · exact .inr (h ▸ List.mem_cons_self)
        · exact (ih h).imp_right (List.mem_cons_of_mem _)

/-- A write keeps the canonical form. -/
theorem memWrite_wf (m : List Host.Cell) (i : Nat) (v : Byte) (h : Memory.wf m) : Memory.wf (memWrite m i v) := by
  induction m with
  | nil => simp [memWrite]
  | cons c m ih =>
    obtain ⟨hc, hm⟩ := List.pairwise_cons.mp h
    simp only [memWrite]
    split
    · rename_i hi
      refine List.pairwise_cons.mpr ⟨fun d hd => ?_, h⟩
      rcases List.mem_cons.mp hd with rfl | hd
      · exact hi
      · exact Nat.lt_trans hi (hc d hd)
    · split
      · rename_i hci
        exact List.pairwise_cons.mpr ⟨fun d hd => hci ▸ hc d hd, hm⟩
      · refine List.pairwise_cons.mpr ⟨fun d hd => ?_, ih hm⟩
        rcases mem_memWrite m i v d hd with rfl | hd
        · simp only
          omega
        · exact hc d hd

/-- Cutting `BUF` to its bytes below `n` keeps the canonical form. -/
theorem memBelow_wf (n : Nat) (m : List Host.Cell) (h : Memory.wf m) : Memory.wf (memBelow n m) :=
  List.Pairwise.filter _ h

theorem mem_memBelow (n : Nat) (m : List Host.Cell) (c : Host.Cell) : c ∈ memBelow n m ↔ c ∈ m ∧ c.1 < n := by
  simp [memBelow]

/-- After the cut the bytes below `n` read as before, the others as unwritten. -/
theorem memRead_memBelow (n : Nat) (m : List Host.Cell) (i : Nat) :
    memRead (memBelow n m) i = if i < n then memRead m i else none := by
  induction m with
  | nil => simp [memBelow]
  | cons c m ih =>
    simp only [memBelow, List.filter_cons] at ih ⊢
    by_cases hc : c.1 < n
    · simp only [hc, decide_true, if_true, memRead_cons, ih]
      by_cases hi : c.1 = i
      · simp [← hi, hc]
      · simp [hi]
    · simp only [hc, decide_false, Bool.false_eq_true, if_false, ih, memRead_cons]
      by_cases hi : c.1 = i
      · simp [← hi, hc]
      · simp [hi]

/-- The pass over `BUF` changes no offset. -/
theorem memMap_offsets (n : Nat) (f : Nat → Byte → Byte) (m : List Host.Cell) :
    (memMap n f m).map Prod.fst = m.map Prod.fst := by
  simp only [memMap, List.map_map]
  refine List.map_congr_left fun c _ => ?_
  simp only [Function.comp]
  split <;> rfl

/-- The pass over `BUF` keeps the canonical form. -/
theorem memMap_wf (n : Nat) (f : Nat → Byte → Byte) (m : List Host.Cell) (h : Memory.wf m) :
    Memory.wf (memMap n f m) := by
  have h' : (m.map Prod.fst).Pairwise (· < ·) := List.pairwise_map.mpr h
  rw [← memMap_offsets n f m] at h'
  exact List.pairwise_map.mp h'

/-- The pass over `BUF` keeps every byte inside `LEN`. -/
theorem memMap_inside (n len : Nat) (f : Nat → Byte → Byte) (m : List Host.Cell) (h : ∀ c ∈ m, c.1 < len) :
    ∀ c ∈ memMap n f m, c.1 < len := by
  intro c hc
  obtain ⟨d, hd, rfl⟩ := List.mem_map.mp hc
  split
  · exact h d hd
  · exact h d hd

/-- R83, R84, R85: after the pass each byte below `n` is `f` of its offset and its old value; every other byte reads as
before. -/
theorem memRead_memMap (n : Nat) (f : Nat → Byte → Byte) (m : List Host.Cell) (i : Nat) :
    memRead (memMap n f m) i = if i < n then (memRead m i).map (f i) else memRead m i := by
  induction m with
  | nil => simp [memMap]
  | cons c m ih =>
    simp only [memMap, List.map_cons, memRead_cons] at ih ⊢
    rw [ih]
    by_cases hi : c.1 = i
    · subst hi
      by_cases hc : c.1 < n <;> simp [hc]
    · by_cases hc : c.1 < n <;> simp [hi, hc]

/-- Two passes are one pass of the composition. -/
theorem memMap_memMap (n : Nat) (f g : Nat → Byte → Byte) (m : List Host.Cell) :
    memMap n g (memMap n f m) = memMap n (fun i b => g i (f i b)) m := by
  simp only [memMap, List.map_map]
  refine List.map_congr_left fun c _ => ?_
  by_cases hc : c.1 < n <;> simp [hc]

/-- A pass that changes no byte changes nothing. -/
theorem memMap_id (n : Nat) (m : List Host.Cell) : memMap n (fun _ b => b) m = m := by
  refine (List.map_congr_left fun c _ => ?_).trans (List.map_id m)
  simp

/-- The search over a canonical list whose entries start at `i` finds the least unlisted offset, and nothing exactly
when every offset from `i` up to `n` is listed. -/
theorem firstUnlisted_spec (n i : Nat) (m : List Host.Cell) (h : Memory.wf m) (hi : ∀ c ∈ m, i ≤ c.1) :
    match firstUnlisted n i m with
    | none => ∀ k, i ≤ k → k < n → (memRead m k).isSome = true
    | some j => i ≤ j ∧ j < n ∧ memRead m j = none ∧ ∀ k, i ≤ k → k < j → (memRead m k).isSome = true := by
  induction m generalizing i with
  | nil =>
    by_cases hn : i < n
    · rw [firstUnlisted, if_pos hn]
      exact ⟨Nat.le_refl _, hn, rfl, fun k h1 h2 => absurd h2 (Nat.not_lt.mpr h1)⟩
    · rw [firstUnlisted, if_neg hn]
      intro k h1 h2
      omega
  | cons c m ih =>
    obtain ⟨hc, hm⟩ := List.pairwise_cons.mp h
    by_cases hn : n ≤ i
    · rw [firstUnlisted, if_pos hn]
      intro k h1 h2
      omega
    · by_cases hci : c.1 = i
      · rw [firstUnlisted, if_neg hn, if_pos hci]
        have hs := ih (i + 1) hm fun d hd => by have := hc d hd; omega
        have step : ∀ k, i ≤ k → (i + 1 ≤ k → (memRead m k).isSome = true) →
            (memRead (c :: m) k).isSome = true := by
          intro k hk hm'
          rw [memRead_cons]
          split
          · rfl
          · exact hm' (by omega)
        cases hf : firstUnlisted n (i + 1) m with
        | none =>
          rw [hf] at hs
          exact fun k h1 h2 => step k h1 fun h => hs k h h2
        | some j =>
          rw [hf] at hs
          obtain ⟨h1, h2, h3, h4⟩ := hs
          refine ⟨by omega, h2, ?_, fun k hk1 hk2 => step k hk1 fun h => h4 k h hk2⟩
          rw [memRead_cons, if_neg (by omega), h3]
      · rw [firstUnlisted, if_neg hn, if_neg hci]
        have hle := hi c List.mem_cons_self
        refine ⟨Nat.le_refl _, by omega, ?_, fun k h1 h2 => absurd h2 (Nat.not_lt.mpr h1)⟩
        refine memRead_eq_none _ _ fun d hd => ?_
        rcases List.mem_cons.mp hd with rfl | hd
        · exact hci
        · have := hc d hd
          omega

/-- On a canonical `BUF` the search answers none exactly when every byte below `n` has been written. -/
theorem firstUnlisted_eq_none (n : Nat) (m : List Host.Cell) (h : Memory.wf m) :
    firstUnlisted n 0 m = none ↔ ∀ i, i < n → (memRead m i).isSome = true := by
  have hs := firstUnlisted_spec n 0 m h fun _ _ => Nat.zero_le _
  cases hf : firstUnlisted n 0 m with
  | none =>
    rw [hf] at hs
    exact ⟨fun _ i hi => hs i (Nat.zero_le _) hi, fun _ => rfl⟩
  | some j =>
    rw [hf] at hs
    refine ⟨fun hh => absurd hh (by simp), fun hh => ?_⟩
    have := hh j hs.2.1
    rw [hs.2.2.1] at this
    simp at this

/-- On a canonical `BUF` the search answers the least unwritten offset. -/
theorem firstUnlisted_eq_some (n j : Nat) (m : List Host.Cell) (h : Memory.wf m) :
    firstUnlisted n 0 m = some j ↔
      j < n ∧ memRead m j = none ∧ ∀ k, k < j → (memRead m k).isSome = true := by
  have hs := firstUnlisted_spec n 0 m h fun _ _ => Nat.zero_le _
  constructor
  · intro hf
    rw [hf] at hs
    exact ⟨hs.2.1, hs.2.2.1, fun k hk => hs.2.2.2 k (Nat.zero_le _) hk⟩
  · rintro ⟨h1, h2, h3⟩
    cases hf : firstUnlisted n 0 m with
    | none =>
      rw [hf] at hs
      have := hs j (Nat.zero_le _) h1
      rw [h2] at this
      simp at this
    | some i =>
      rw [hf] at hs
      rcases Nat.lt_trichotomy i j with hij | rfl | hij
      · have := h3 i hij
        rw [hs.2.2.1] at this
        simp at this
      · rfl
      · have := hs.2.2.2 j (Nat.zero_le _) hij
        rw [h2] at this
        simp at this

end Sys2Proof.Machine
end

