-- ==== Sys2Proof/Laws/State.lean ====
section
/-! SUPPORT. One lemma per field per update of the state, so that no later proof unfolds a record update. -/

namespace Sys2Proof.Machine

variable (s : State)

@[simp] theorem State.writeRecord_record (r : Vector Byte 6) : (s.writeRecord r).record = r := rfl
@[simp] theorem State.writeRecord_recordWritten (r : Vector Byte 6) : (s.writeRecord r).recordWritten = s.recordWritten := rfl
@[simp] theorem State.writeRecord_buf (r : Vector Byte 6) : (s.writeRecord r).buf = s.buf := rfl
@[simp] theorem State.writeRecord_len (r : Vector Byte 6) : (s.writeRecord r).len = s.len := rfl
@[simp] theorem State.writeRecord_seeds1 (r : Vector Byte 6) : (s.writeRecord r).seeds1 = s.seeds1 := rfl
@[simp] theorem State.writeRecord_seeds2 (r : Vector Byte 6) : (s.writeRecord r).seeds2 = s.seeds2 := rfl
@[simp] theorem State.writeRecord_ccCommand (r : Vector Byte 6) : (s.writeRecord r).ccCommand = s.ccCommand := rfl
@[simp] theorem State.writeRecord_rcCommand (r : Vector Byte 6) : (s.writeRecord r).rcCommand = s.rcCommand := rfl
@[simp] theorem State.writeRecord_results (r : Vector Byte 6) : (s.writeRecord r).results = s.results := rfl
@[simp] theorem State.writeRecord_agenda (r : Vector Byte 6) : (s.writeRecord r).agenda = s.agenda := rfl

@[simp] theorem State.hostWriteRecordByte_record (j : Fin 6) (v : Byte) : (s.hostWriteRecordByte j v).record = s.record.set j v := rfl
@[simp] theorem State.hostWriteRecordByte_recordWritten (j : Fin 6) (v : Byte) : (s.hostWriteRecordByte j v).recordWritten = s.recordWritten.set j true := rfl
@[simp] theorem State.hostWriteRecordByte_buf (j : Fin 6) (v : Byte) : (s.hostWriteRecordByte j v).buf = s.buf := rfl
@[simp] theorem State.hostWriteRecordByte_len (j : Fin 6) (v : Byte) : (s.hostWriteRecordByte j v).len = s.len := rfl
@[simp] theorem State.hostWriteRecordByte_seeds1 (j : Fin 6) (v : Byte) : (s.hostWriteRecordByte j v).seeds1 = s.seeds1 := rfl
@[simp] theorem State.hostWriteRecordByte_seeds2 (j : Fin 6) (v : Byte) : (s.hostWriteRecordByte j v).seeds2 = s.seeds2 := rfl
@[simp] theorem State.hostWriteRecordByte_ccCommand (j : Fin 6) (v : Byte) : (s.hostWriteRecordByte j v).ccCommand = s.ccCommand := rfl
@[simp] theorem State.hostWriteRecordByte_rcCommand (j : Fin 6) (v : Byte) : (s.hostWriteRecordByte j v).rcCommand = s.rcCommand := rfl
@[simp] theorem State.hostWriteRecordByte_results (j : Fin 6) (v : Byte) : (s.hostWriteRecordByte j v).results = s.results := rfl
@[simp] theorem State.hostWriteRecordByte_agenda (j : Fin 6) (v : Byte) : (s.hostWriteRecordByte j v).agenda = s.agenda := rfl

@[simp] theorem State.hostWriteBufByte_record (i : Nat) (v : Byte) : (s.hostWriteBufByte i v).record = s.record := rfl
@[simp] theorem State.hostWriteBufByte_recordWritten (i : Nat) (v : Byte) : (s.hostWriteBufByte i v).recordWritten = s.recordWritten := rfl
@[simp] theorem State.hostWriteBufByte_buf (i : Nat) (v : Byte) : (s.hostWriteBufByte i v).buf = memWrite s.buf i v := rfl
@[simp] theorem State.hostWriteBufByte_len (i : Nat) (v : Byte) : (s.hostWriteBufByte i v).len = s.len := rfl
@[simp] theorem State.hostWriteBufByte_seeds1 (i : Nat) (v : Byte) : (s.hostWriteBufByte i v).seeds1 = s.seeds1 := rfl
@[simp] theorem State.hostWriteBufByte_seeds2 (i : Nat) (v : Byte) : (s.hostWriteBufByte i v).seeds2 = s.seeds2 := rfl
@[simp] theorem State.hostWriteBufByte_ccCommand (i : Nat) (v : Byte) : (s.hostWriteBufByte i v).ccCommand = s.ccCommand := rfl
@[simp] theorem State.hostWriteBufByte_rcCommand (i : Nat) (v : Byte) : (s.hostWriteBufByte i v).rcCommand = s.rcCommand := rfl
@[simp] theorem State.hostWriteBufByte_results (i : Nat) (v : Byte) : (s.hostWriteBufByte i v).results = s.results := rfl
@[simp] theorem State.hostWriteBufByte_agenda (i : Nat) (v : Byte) : (s.hostWriteBufByte i v).agenda = s.agenda := rfl

@[simp] theorem State.hostSetLength_record (n : Nat) : (s.hostSetLength n).record = s.record := rfl
@[simp] theorem State.hostSetLength_recordWritten (n : Nat) : (s.hostSetLength n).recordWritten = s.recordWritten := rfl
@[simp] theorem State.hostSetLength_buf (n : Nat) : (s.hostSetLength n).buf = memBelow n s.buf := rfl
@[simp] theorem State.hostSetLength_len (n : Nat) : (s.hostSetLength n).len = n := rfl
@[simp] theorem State.hostSetLength_seeds1 (n : Nat) : (s.hostSetLength n).seeds1 = s.seeds1 := rfl
@[simp] theorem State.hostSetLength_seeds2 (n : Nat) : (s.hostSetLength n).seeds2 = s.seeds2 := rfl
@[simp] theorem State.hostSetLength_ccCommand (n : Nat) : (s.hostSetLength n).ccCommand = s.ccCommand := rfl
@[simp] theorem State.hostSetLength_rcCommand (n : Nat) : (s.hostSetLength n).rcCommand = s.rcCommand := rfl
@[simp] theorem State.hostSetLength_results (n : Nat) : (s.hostSetLength n).results = s.results := rfl
@[simp] theorem State.hostSetLength_agenda (n : Nat) : (s.hostSetLength n).agenda = s.agenda := rfl

@[simp] theorem State.present_record (u : CoreUnit) (r : Result) : (s.present u r).record = s.record := rfl
@[simp] theorem State.present_recordWritten (u : CoreUnit) (r : Result) : (s.present u r).recordWritten = s.recordWritten := rfl
@[simp] theorem State.present_buf (u : CoreUnit) (r : Result) : (s.present u r).buf = s.buf := rfl
@[simp] theorem State.present_len (u : CoreUnit) (r : Result) : (s.present u r).len = s.len := rfl
@[simp] theorem State.present_seeds1 (u : CoreUnit) (r : Result) : (s.present u r).seeds1 = s.seeds1 := rfl
@[simp] theorem State.present_seeds2 (u : CoreUnit) (r : Result) : (s.present u r).seeds2 = s.seeds2 := rfl
@[simp] theorem State.present_ccCommand (u : CoreUnit) (r : Result) : (s.present u r).ccCommand = s.ccCommand := rfl
@[simp] theorem State.present_rcCommand (u : CoreUnit) (r : Result) : (s.present u r).rcCommand = s.rcCommand := rfl
@[simp] theorem State.present_results (u : CoreUnit) (r : Result) : (s.present u r).results = s.results ++ [⟨u, r⟩] := rfl
@[simp] theorem State.present_agenda (u : CoreUnit) (r : Result) : (s.present u r).agenda = s.agenda := rfl

@[simp] theorem State.afterReset_record : (s.afterReset).record = State.reset.record := rfl
@[simp] theorem State.afterReset_recordWritten : (s.afterReset).recordWritten = State.reset.recordWritten := rfl
@[simp] theorem State.afterReset_buf : (s.afterReset).buf = [] := rfl
@[simp] theorem State.afterReset_len : (s.afterReset).len = 0 := rfl
@[simp] theorem State.afterReset_seeds1 : (s.afterReset).seeds1 = s.seeds1 := rfl
@[simp] theorem State.afterReset_seeds2 : (s.afterReset).seeds2 = s.seeds2 := rfl
@[simp] theorem State.afterReset_ccCommand : (s.afterReset).ccCommand = none := rfl
@[simp] theorem State.afterReset_rcCommand : (s.afterReset).rcCommand = none := rfl
@[simp] theorem State.afterReset_results : (s.afterReset).results = s.results := rfl
@[simp] theorem State.afterReset_agenda : (s.afterReset).agenda = s.agenda := rfl

@[simp] theorem State.setCommand_record (u : CoreUnit) (c : Option Instr) : (s.setCommand u c).record = s.record := by
  cases u <;> rfl
@[simp] theorem State.setCommand_recordWritten (u : CoreUnit) (c : Option Instr) : (s.setCommand u c).recordWritten = s.recordWritten := by
  cases u <;> rfl
@[simp] theorem State.setCommand_buf (u : CoreUnit) (c : Option Instr) : (s.setCommand u c).buf = s.buf := by
  cases u <;> rfl
@[simp] theorem State.setCommand_len (u : CoreUnit) (c : Option Instr) : (s.setCommand u c).len = s.len := by
  cases u <;> rfl
@[simp] theorem State.setCommand_seeds1 (u : CoreUnit) (c : Option Instr) : (s.setCommand u c).seeds1 = s.seeds1 := by
  cases u <;> rfl
@[simp] theorem State.setCommand_seeds2 (u : CoreUnit) (c : Option Instr) : (s.setCommand u c).seeds2 = s.seeds2 := by
  cases u <;> rfl
@[simp] theorem State.setCommand_results (u : CoreUnit) (c : Option Instr) : (s.setCommand u c).results = s.results := by
  cases u <;> rfl
@[simp] theorem State.setCommand_agenda (u : CoreUnit) (c : Option Instr) : (s.setCommand u c).agenda = s.agenda := by
  cases u <;> rfl

@[simp] theorem State.setCommand_cc_ccCommand (c : Option Instr) : (s.setCommand .cc c).ccCommand = c := rfl
@[simp] theorem State.setCommand_cc_rcCommand (c : Option Instr) : (s.setCommand .cc c).rcCommand = s.rcCommand := rfl
@[simp] theorem State.setCommand_rc_ccCommand (c : Option Instr) : (s.setCommand .rc c).ccCommand = s.ccCommand := rfl
@[simp] theorem State.setCommand_rc_rcCommand (c : Option Instr) : (s.setCommand .rc c).rcCommand = c := rfl
@[simp] theorem State.command_cc : s.command .cc = s.ccCommand := rfl
@[simp] theorem State.command_rc : s.command .rc = s.rcCommand := rfl

@[simp] theorem State.command_setCommand_self (u : CoreUnit) (c : Option Instr) :
    (s.setCommand u c).command u = c := by
  cases u <;> rfl

@[simp] theorem State.command_setCommand_other (u v : CoreUnit) (c : Option Instr) (h : u ≠ v) :
    (s.setCommand u c).command v = s.command v := by
  cases u <;> cases v <;> first | rfl | exact absurd rfl h

@[simp] theorem State.command_present (u v : CoreUnit) (r : Result) : (s.present u r).command v = s.command v := by
  cases v <;> rfl

@[simp] theorem State.setCommand_setCommand (u : CoreUnit) (c d : Option Instr) :
    (s.setCommand u c).setCommand u d = s.setCommand u d := by
  cases u <;> rfl

/-- Giving a unit the command it already has changes nothing. -/
theorem State.setCommand_command (u : CoreUnit) : s.setCommand u (s.command u) = s := by
  cases u <;> rfl

@[simp] theorem State.reset_buf : State.reset.buf = [] := rfl
@[simp] theorem State.reset_len : State.reset.len = 0 := rfl
@[simp] theorem State.reset_ccCommand : State.reset.ccCommand = none := rfl
@[simp] theorem State.reset_rcCommand : State.reset.rcCommand = none := rfl
@[simp] theorem State.reset_results : State.reset.results = [] := rfl
@[simp] theorem State.reset_agenda : State.reset.agenda = [] := rfl

end Sys2Proof.Machine
end

