-- ==== Sys2Proof/Laws/Ops.lean ====
section
/-! SUPPORT. One lemma for each shared operation that says once everything it can do; later proofs cite these and do not
unfold the operation. -/

namespace Sys2Proof.Machine

/-! ### Reads of the record -/

theorem State.readRecordByte_of_written (s : State) (j : Fin 6) (h : s.recordWritten[j] = true) :
    s.readRecordByte j = .ok s.record[j] := if_pos h

theorem State.readRecordByte_of_unwritten (s : State) (j : Fin 6) (h : s.recordWritten[j] = false) :
    s.readRecordByte j = .error (.unwrittenRecord j) := by
  simp only [State.readRecordByte, h, Bool.false_eq_true, if_false]

/-- A read of a register succeeds exactly when the host has written it. -/
theorem State.readRecordByte_eq_ok (s : State) (j : Fin 6) (b : Byte) :
    s.readRecordByte j = .ok b ↔ s.recordWritten[j] = true ∧ s.record[j] = b := by
  cases h : s.recordWritten[j]
  · simp [s.readRecordByte_of_unwritten j h]
  · simp [s.readRecordByte_of_written j h]

theorem State.readRecord_of_ready (s : State) (h : s.recordReady) : s.readRecord = .ok s.record := by
  have hf : ([0, 1, 2, 3, 4, 5] : List (Fin 6)).find? (fun j => !s.recordWritten[j]) = none := by
    rw [List.find?_eq_none]
    intro j _
    simp [h j]
  simp only [State.readRecord, hf]

/-- A read of the whole record succeeds, with its contents, exactly when the host has written all six registers. -/
theorem State.readRecord_eq_ok (s : State) (r : Vector Byte 6) :
    s.readRecord = .ok r ↔ s.recordReady ∧ s.record = r := by
  constructor
  · intro h
    unfold State.readRecord at h
    split at h
    · cases h
    · rename_i hf
      refine ⟨fun j => ?_, Except.ok.inj h⟩
      have hall := List.find?_eq_none.mp hf j (by revert j; decide)
      simpa using hall
  · rintro ⟨h, rfl⟩
    exact s.readRecord_of_ready h

/-- Otherwise it faults at a register the host has not written. -/
theorem State.readRecord_eq_error (s : State) (e : Fault) (h : s.readRecord = .error e) :
    ∃ j : Fin 6, e = .unwrittenRecord j ∧ s.recordWritten[j] = false := by
  unfold State.readRecord at h
  split at h
  · rename_i j hf
    refine ⟨j, (Except.error.inj h).symm, ?_⟩
    have := List.find?_some hf
    simpa using this
  · cases h

/-! ### Reads and passes over the buffer -/

/-- A read of `BUF[i]` succeeds exactly when the offset exists and the byte has been written. -/
theorem State.readBuf_eq_ok (s : State) (i : Nat) (b : Byte) :
    s.readBuf i = .ok b ↔ i < s.len ∧ memRead s.buf i = some b := by
  unfold State.readBuf
  by_cases hi : i < s.len
  · simp only [hi, if_true, true_and]
    cases memRead s.buf i <;> simp
  · simp [hi]

/-- The word at an offset, when its four bytes can be read. -/
theorem State.readBufWord_of_bytes (s : State) (i : Nat) (b0 b1 b2 b3 : Byte) (h0 : s.readBuf i = .ok b0)
    (h1 : s.readBuf (i + 1) = .ok b1) (h2 : s.readBuf (i + 2) = .ok b2) (h3 : s.readBuf (i + 3) = .ok b3) :
    s.readBufWord i = .ok (littleEndianWord b0 b1 b2 b3) := by
  simp only [State.readBufWord, h0, h1, h2, h3]
  rfl

/-- The pass succeeds, with the mapped buffer, exactly when the search finds no unwritten byte below `n`. -/
theorem State.transformBuf_eq_ok (s t : State) (n : Nat) (f : Nat → Byte → Byte) :
    s.transformBuf n f = .ok t ↔ firstUnlisted n 0 s.buf = none ∧ t = { s with buf := memMap n f s.buf } := by
  unfold State.transformBuf
  cases firstUnlisted n 0 s.buf <;> simp [eq_comm]

/-- On a canonical buffer whose first `n` bytes the host has written, the pass succeeds. -/
theorem State.transformBuf_of_ready (s : State) (n : Nat) (f : Nat → Byte → Byte) (hw : Memory.wf s.buf)
    (hr : s.bufReady n) : s.transformBuf n f = .ok { s with buf := memMap n f s.buf } :=
  (s.transformBuf_eq_ok _ n f).mpr ⟨(firstUnlisted_eq_none n s.buf hw).mpr hr, rfl⟩

/-- On a canonical buffer it faults at the least byte the host has not written. -/
theorem State.transformBuf_eq_error (s : State) (n : Nat) (f : Nat → Byte → Byte) (e : Fault) (hw : Memory.wf s.buf)
    (h : s.transformBuf n f = .error e) :
    ∃ i, e = .unwrittenBuf i ∧ i < n ∧ memRead s.buf i = none ∧ ∀ k, k < i → (memRead s.buf k).isSome = true := by
  unfold State.transformBuf at h
  split at h
  · rename_i i hi
    exact ⟨i, (Except.error.inj h).symm, (firstUnlisted_eq_some n i s.buf hw).mp hi⟩
  · cases h

/-! ### The RC unit's shared operations -/

/-- The pass ends in `OK` on the mapped buffer. -/
theorem rcPass_of_ready (n : Nat) (f : Nat → Byte → Byte) (s : State) (hw : Memory.wf s.buf) (hr : s.bufReady n) :
    rcPass n f s = .next (State.present { s with buf := memMap n f s.buf } .rc .ok) := by
  simp only [rcPass, s.transformBuf_of_ready n f hw hr]

/-- If the pass answers a next state, it is the mapped buffer with `OK` presented. -/
theorem rcPass_eq_next (n : Nat) (f : Nat → Byte → Byte) (s t : State) (h : rcPass n f s = .next t) :
    t = State.present { s with buf := memMap n f s.buf } .rc .ok := by
  unfold rcPass at h
  split at h
  · cases h
  · rename_i u hu
    rw [(s.transformBuf_eq_ok u n f).mp hu |>.2] at h
    exact (Host.Outcome.next.inj h).symm

/-- R82: the input check fails with `INVALID_INPUT` and nothing else. -/
theorem rcChecked_of_invalid (p : Bool) (n : Nat) (s : State) (body : Host.Outcome State Fault Refusal)
    (h : p = false ∨ n < blockSize) : rcChecked p n s body = .next (s.present .rc .invalidInput) := by
  unfold rcChecked
  rcases h with h | h
  · rw [if_pos h]
  · by_cases hp : p = false
    · rw [if_pos hp]
    · rw [if_neg hp, if_pos h]

/-- R82, R120: with the check passed and `LEN` the buffer's size, the operation's body runs. -/
theorem rcChecked_of_valid (n : Nat) (s : State) (body : Host.Outcome State Fault Refusal) (h : blockSize ≤ n)
    (hl : n = s.len) : rcChecked true n s body = body := by
  unfold rcChecked
  rw [if_neg (by decide), if_neg (Nat.not_lt.mpr h), if_neg (not_not.mpr hl)]

/-- U11: with the check passed and another `LEN`, the command is refused. -/
theorem rcChecked_of_mismatch (n : Nat) (s : State) (body : Host.Outcome State Fault Refusal) (h : blockSize ≤ n)
    (hl : n ≠ s.len) : rcChecked true n s body = .refused (.lenMismatch n s.len) := by
  unfold rcChecked
  rw [if_neg (by decide), if_neg (Nat.not_lt.mpr h), if_pos hl]

/-- If a checked operation answers a next state, then the check failed, or the body answered it. -/
theorem rcChecked_eq_next (p : Bool) (n : Nat) (s t : State) (body : Host.Outcome State Fault Refusal)
    (h : rcChecked p n s body = .next t) :
    ((p = false ∨ n < blockSize) ∧ t = s.present .rc .invalidInput) ∨
      (p = true ∧ blockSize ≤ n ∧ n = s.len ∧ body = .next t) := by
  unfold rcChecked at h
  split at h
  · rename_i hp
    exact .inl ⟨.inl hp, (Host.Outcome.next.inj h).symm⟩
  · rename_i hp
    split at h
    · rename_i hn
      exact .inl ⟨.inr hn, (Host.Outcome.next.inj h).symm⟩
    · rename_i hn
      split at h
      · cases h
      · rename_i hl
        exact .inr ⟨by simpa using hp, Nat.not_lt.mp hn, not_not.mp hl, h⟩

/-- If `RC.AUTO`'s body answers a next state, one of the two passes does. -/
theorem rcAutoBody_eq_next (n : Nat) (s t : State)
    (h : (match s.readBufWord sigOffset with
      | .error e => (.fault e : Host.Outcome State Fault Refusal)
      | .ok w => if w = sigWord then rcPass n s.romEncAt s else rcPass n s.romDecAt s) = .next t) :
    ∃ w, s.readBufWord sigOffset = .ok w ∧
      ((w = sigWord ∧ rcPass n s.romEncAt s = .next t) ∨ (w ≠ sigWord ∧ rcPass n s.romDecAt s = .next t)) := by
  split at h
  · cases h
  · rename_i w hw
    refine ⟨w, hw, ?_⟩
    split at h
    · rename_i hs
      exact .inl ⟨hs, h⟩
    · rename_i hs
      exact .inr ⟨hs, h⟩

/-! ### The CC unit's shared operations -/

theorem ccChecked_absent (s : State) (body : Byte → Host.Outcome State Fault Refusal) :
    ccChecked false s body = .next (s.present .cc .invalidInput) := rfl

/-- R69, R117: with the record present and byte 0 written, the operation's body runs on byte 0. -/
theorem ccChecked_of_written (s : State) (body : Byte → Host.Outcome State Fault Refusal)
    (h : s.recordWritten[(0 : Fin 6)] = true) : ccChecked true s body = body s.record[(0 : Fin 6)] := by
  simp only [ccChecked, s.readRecordByte_of_written 0 h, Bool.true_eq_false, if_false]

theorem ccChecked_of_unwritten (s : State) (body : Byte → Host.Outcome State Fault Refusal)
    (h : s.recordWritten[(0 : Fin 6)] = false) : ccChecked true s body = .fault (.unwrittenRecord 0) := by
  simp only [ccChecked, s.readRecordByte_of_unwritten 0 h, Bool.true_eq_false, if_false]
  rfl

/-- If a checked operation answers a next state, the record was absent or the body answered it. -/
theorem ccChecked_eq_next (p : Bool) (s t : State) (body : Byte → Host.Outcome State Fault Refusal)
    (h : ccChecked p s body = .next t) :
    (p = false ∧ t = s.present .cc .invalidInput) ∨
      (p = true ∧ s.recordWritten[(0 : Fin 6)] = true ∧ body s.record[(0 : Fin 6)] = .next t) := by
  cases p
  · exact .inl ⟨rfl, (Host.Outcome.next.inj h).symm⟩
  · cases hw : s.recordWritten[(0 : Fin 6)]
    · rw [ccChecked_of_unwritten s body hw] at h
      cases h
    · rw [ccChecked_of_written s body hw] at h
      exact .inr ⟨rfl, rfl, h⟩

/-- The formula steps end in `OK` when the host has written the whole record. -/
theorem ccTransform_of_ready (g : Vector Byte 6 → Vector Byte 6) (s : State) (h : s.recordReady) :
    ccTransform g s = .next ((s.writeRecord (g s.record)).present .cc .ok) := by
  simp only [ccTransform, s.readRecord_of_ready h]

theorem ccTransform_eq_next (g : Vector Byte 6 → Vector Byte 6) (s t : State) (h : ccTransform g s = .next t) :
    s.recordReady ∧ t = (s.writeRecord (g s.record)).present .cc .ok := by
  unfold ccTransform at h
  split at h
  · cases h
  · rename_i r hr
    obtain ⟨h1, rfl⟩ := (s.readRecord_eq_ok r).mp hr
    exact ⟨h1, (Host.Outcome.next.inj h).symm⟩

/-- The four integers that name a key. -/
theorem keyOfInt_eq_some (key : Int) (k : Key) : keyOfInt key = some k ↔ key = k.toInt := by
  unfold keyOfInt
  constructor
  · intro h
    split_ifs at h with h4 h5 h6 h7 <;> cases h <;> assumption
  · rintro rfl
    cases k <;> rfl

/-- Every other integer names none. -/
theorem keyOfInt_eq_none (key : Int) : keyOfInt key = none ↔ ¬(4 ≤ key ∧ key ≤ 7) := by
  unfold keyOfInt
  split_ifs <;> simp <;> omega

@[simp] theorem keyOfInt_toInt (k : Key) : keyOfInt k.toInt = some k := (keyOfInt_eq_some _ k).mpr rfl

/-- Everything `CC.ENC` with a present record can end in as a next state (R71, R73). -/
theorem ccEncrypt_eq_next (cfg : Config) (p : Bool) (key : Int) (s t : State) (h : ccEncrypt cfg p key s = .next t) :
    (p = false ∧ t = s.present .cc .invalidInput) ∨
      (p = true ∧ s.recordWritten[(0 : Fin 6)] = true ∧
        ((key = keyAuto ∧
            t = (s.writeRecord (failWrite cfg.ccFailWritesB0 key s.record)).present .cc .invalidInput) ∨
          (key ≠ keyAuto ∧ keyOfInt key = none ∧
            t = (s.writeRecord (failWrite cfg.ccFailWritesB0 key s.record)).present .cc .unsupportedKey) ∨
          ∃ k : Key, key = k.toInt ∧ s.recordReady ∧
            t = (s.writeRecord (encryptRecord cfg.formulas k s.record)).present .cc .ok)) := by
  rcases ccChecked_eq_next p s t _ h with h | ⟨hp, hw, h⟩
  · exact .inl h
  · refine .inr ⟨hp, hw, ?_⟩
    split at h
    · rename_i hk
      exact .inl ⟨hk, (Host.Outcome.next.inj h).symm⟩
    · rename_i hk
      split at h
      · rename_i hn
        exact .inr (.inl ⟨hk, hn, (Host.Outcome.next.inj h).symm⟩)
      · rename_i k hs
        obtain ⟨h1, h2⟩ := ccTransform_eq_next _ s t h
        exact .inr (.inr ⟨k, (keyOfInt_eq_some key k).mp hs, h1, h2⟩)

/-- Everything `CC.DEC` with a present record can end in as a next state (R72, R73). -/
theorem ccDecrypt_eq_next (cfg : Config) (p : Bool) (key : Int) (s t : State) (h : ccDecrypt cfg p key s = .next t) :
    (p = false ∧ t = s.present .cc .invalidInput) ∨
      (p = true ∧ s.recordWritten[(0 : Fin 6)] = true ∧
        ((key = keyAuto ∧ keyOfInt ((autoNibble s.record[(0 : Fin 6)]).toNat : Int) = none ∧
            t = (s.writeRecord (maskByte0 (autoNibble s.record[(0 : Fin 6)]) s.record)).present .cc .unsupportedKey) ∨
          (key = keyAuto ∧ ∃ k : Key, ((autoNibble s.record[(0 : Fin 6)]).toNat : Int) = k.toInt ∧ s.recordReady ∧
            t = (s.writeRecord (decryptSteps cfg.formulas k
              (maskByte0 (autoNibble s.record[(0 : Fin 6)]) s.record))).present .cc .ok) ∨
          (key ≠ keyAuto ∧ keyOfInt key = none ∧
            t = (s.writeRecord (failWrite cfg.ccFailWritesB0 key s.record)).present .cc .unsupportedKey) ∨
          ∃ k : Key, key = k.toInt ∧ s.recordReady ∧
            t = (s.writeRecord (decryptRecord cfg.formulas k s.record)).present .cc .ok)) := by
  rcases ccChecked_eq_next p s t _ h with h | ⟨hp, hw, h⟩
  · exact .inl h
  · refine .inr ⟨hp, hw, ?_⟩
    split at h
    · rename_i hk
      split at h
      · rename_i hn
        exact .inl ⟨hk, hn, (Host.Outcome.next.inj h).symm⟩
      · rename_i k hs
        obtain ⟨h1, h2⟩ := ccTransform_eq_next _ s t h
        exact .inr (.inl ⟨hk, k, (keyOfInt_eq_some _ k).mp hs, h1, h2⟩)
    · rename_i hk
      split at h
      · rename_i hn
        exact .inr (.inr (.inl ⟨hk, hn, (Host.Outcome.next.inj h).symm⟩))
      · rename_i k hs
        obtain ⟨h1, h2⟩ := ccTransform_eq_next _ s t h
        exact .inr (.inr (.inr ⟨k, (keyOfInt_eq_some key k).mp hs, h1, h2⟩))

/-! ### The moves of the agenda -/

/-- If an issued word is accepted, it decoded to a command of an idle unit. -/
theorem accept_eq_next (w : CmdWord) (s t : State) (body : Instr → Host.Outcome State Fault Refusal)
    (h : accept w s body = .next t) :
    ∃ i, decode w = .ok i ∧ s.command i.unit = none ∧ body i = .next t := by
  unfold accept at h
  split at h
  · cases h
  · rename_i i hi
    split at h
    · cases h
    · rename_i hb
      exact ⟨i, hi, by simpa using hb, h⟩

/-- A word that decodes is accepted by an idle unit. -/
theorem accept_of_idle (w : CmdWord) (s : State) (body : Instr → Host.Outcome State Fault Refusal) (i : Instr)
    (hd : decode w = .ok i) (hi : s.command i.unit = none) : accept w s body = body i := by
  simp only [accept, hd, hi, Option.isSome_none, Bool.false_eq_true, if_false]

theorem hostAccess_eq_next (u : CoreUnit) (s t : State) (body : Host.Outcome State Fault Refusal)
    (h : hostAccess u s body = .next t) : s.storeHeld u = false ∧ body = .next t := by
  unfold hostAccess at h
  split at h
  · cases h
  · rename_i hh
    exact ⟨by simpa using hh, h⟩

theorem hostBufAccess_eq_next (i : Nat) (s t : State) (body : Host.Outcome State Fault Refusal)
    (h : hostBufAccess i s body = .next t) : s.storeHeld .rc = false ∧ i < s.len ∧ body = .next t := by
  obtain ⟨h1, h2⟩ := hostAccess_eq_next _ _ _ _ h
  split at h2
  · rename_i hi
    exact ⟨h1, hi, h2⟩
  · cases h2

/-- A completion that answers a next state ran the unit's command, or met an idle unit. -/
theorem completeUnit_eq_next (u : CoreUnit) (s t : State) (h : completeUnit u s = .next t) :
    (s.command u = none ∧ t = s) ∨ ∃ i, s.command u = some i ∧ exec i (s.setCommand u none) = .next t := by
  unfold completeUnit at h
  split at h
  · rename_i i hi
    exact .inr ⟨i, hi, h⟩
  · rename_i hi
    exact .inl ⟨hi, (Host.Outcome.next.inj h).symm⟩

/-- A step that answers a next state ran the head of the agenda, or with none left completed a unit. -/
theorem step_eq_next (s t : State) (h : step s = .next t) :
    (∃ e rest, s.agenda = e :: rest ∧ runEvent e { s with agenda := rest } = .next t) ∨
      (s.agenda = [] ∧ ∃ u, completeUnit u s = .next t) := by
  unfold step advance at h
  split at h
  · rename_i ha
    refine .inr ⟨ha, ?_⟩
    unfold drain at h
    split at h
    · exact ⟨_, h⟩
    · exact ⟨_, h⟩
  · rename_i e rest ha
    exact .inl ⟨e, rest, ha, h⟩

end Sys2Proof.Machine
end

