-- ==== Sys2Proof/Laws/Record.lean ====
section
/-! SUPPORT. The code record byte by byte: what the byte-0 step, one formula step and the five steps in order do to each
register (R62, R63, R64). -/

namespace Sys2Proof.Machine

/-- A record is its six bytes. -/
theorem record_cases (r : Vector Byte 6) : ∃ a b c d e f, r = #v[a, b, c, d, e, f] := by
  obtain ⟨⟨l⟩, hl⟩ := r
  match l, hl with
  | [a, b, c, d, e, f], _ => exact ⟨a, b, c, d, e, f, rfl⟩

/-- The byte-0 step on a record. -/
theorem maskByte0_mk (m a b c d e f : Byte) : maskByte0 m #v[a, b, c, d, e, f] = #v[a ^^^ m, b, c, d, e, f] := rfl

/-- R71: encryption in closed form; each step sees the masked byte 0 and the original bytes between. -/
theorem encryptRecord_mk (g : CodeFormulas) (k : Key) (a b c d e f : Byte) :
    encryptRecord g k #v[a, b, c, d, e, f] =
      #v[a ^^^ k.toByte,
        g.encStep k 1 b [a ^^^ k.toByte],
        g.encStep k 2 c [a ^^^ k.toByte, b],
        g.encStep k 3 d [a ^^^ k.toByte, b, c],
        g.encStep k 4 e [a ^^^ k.toByte, b, c, d],
        g.encStep k 5 f [a ^^^ k.toByte, b, c, d, e]] := rfl

/-- R72: the decrypt steps one by one; each sees the bytes already restored. -/
theorem decryptSteps_mk (g : CodeFormulas) (k : Key) (q a b c d e : Byte) :
    decryptSteps g k #v[q, a, b, c, d, e] =
      (let r1 := g.decStep k 1 a [q]
       let r2 := g.decStep k 2 b [q, r1]
       let r3 := g.decStep k 3 c [q, r1, r2]
       let r4 := g.decStep k 4 d [q, r1, r2, r3]
       let r5 := g.decStep k 5 e [q, r1, r2, r3, r4]
       #v[q, r1, r2, r3, r4, r5]) := rfl

theorem decryptRecord_mk (g : CodeFormulas) (k : Key) (q a b c d e : Byte) :
    decryptRecord g k #v[q, a, b, c, d, e] = decryptSteps g k #v[q ^^^ k.toByte, a, b, c, d, e] := rfl

/-- R78: no step writes byte 0. -/
theorem encryptRecord_byte0 (g : CodeFormulas) (k : Key) (r : Vector Byte 6) :
    (encryptRecord g k r)[0] = r[0] ^^^ k.toByte := by
  obtain ⟨a, b, c, d, e, f, rfl⟩ := record_cases r
  rfl

theorem decryptSteps_byte0 (g : CodeFormulas) (k : Key) (r : Vector Byte 6) : (decryptSteps g k r)[0] = r[0] := by
  obtain ⟨a, b, c, d, e, f, rfl⟩ := record_cases r
  rfl

theorem maskByte0_byte0 (m : Byte) (r : Vector Byte 6) : (maskByte0 m r)[0] = r[0] ^^^ m := by
  simp [maskByte0]

/-- The byte-0 step leaves the other bytes. -/
theorem maskByte0_other (m : Byte) (r : Vector Byte 6) (j : Nat) (hj : j < 6) (h : j ≠ 0) :
    (maskByte0 m r)[j] = r[j] := by
  simp [maskByte0, Ne.symm h]

/-- The nibble of a byte is a valid key exactly when the byte's low nibble is that key's value. -/
theorem autoNibble_eq_key (b : Byte) (k : Key) : ((autoNibble b).toNat : Int) = k.toInt ↔ autoNibble b = k.toByte := by
  rw [← BitVec.toNat_inj]
  cases k <;> simp [Key.toInt, Key.toByte] <;> omega

end Sys2Proof.Machine
end

