-- ==== Sys2Proof/Laws/Exec.lean ====
section
/-! SUPPORT. `exec` of each command as its unit's operation, and what each answers on a store the host has written. -/

namespace Sys2Proof.Machine

theorem exec_ccEnc (p : Bool) (key : Int) (s : State) :
    exec (.ccEnc p key) s = ccEncrypt Config.hardware p key s := rfl

theorem exec_ccDec (p : Bool) (key : Int) (s : State) :
    exec (.ccDec p key) s = ccDecrypt Config.hardware p key s := rfl

theorem exec_rcEnc (p : Bool) (n : Nat) (s : State) :
    exec (.rcEnc p n) s = rcChecked p n s (rcPass n s.romEncAt s) := rfl

theorem exec_rcDec (p : Bool) (n : Nat) (s : State) :
    exec (.rcDec p n) s = rcChecked p n s (rcPass n s.romDecAt s) := rfl

theorem exec_rcAuto (p : Bool) (n : Nat) (s : State) :
    exec (.rcAuto p n) s = rcChecked p n s
      (match s.readBufWord sigOffset with
      | .error e => .fault e
      | .ok w => if w = sigWord then rcPass n s.romEncAt s else rcPass n s.romDecAt s) := rfl

/-- The operation behind `CC.ENC` with a concrete key, on a written record, under any configuration. -/
theorem ccEncrypt_of_ready (cfg : Config) (k : Key) (s : State) (h : s.recordReady) :
    ccEncrypt cfg true k.toInt s =
      .next ((s.writeRecord (encryptRecord cfg.formulas k s.record)).present .cc .ok) := by
  unfold ccEncrypt
  rw [ccChecked_of_written s _ (h 0), if_neg k.toInt_ne_auto, keyOfInt_toInt]
  exact ccTransform_of_ready _ s h

/-- The operation behind `CC.DEC` with a concrete key, on a written record, under any configuration. -/
theorem ccDecrypt_of_ready (cfg : Config) (k : Key) (s : State) (h : s.recordReady) :
    ccDecrypt cfg true k.toInt s =
      .next ((s.writeRecord (decryptRecord cfg.formulas k s.record)).present .cc .ok) := by
  unfold ccDecrypt
  rw [ccChecked_of_written s _ (h 0), if_neg k.toInt_ne_auto, keyOfInt_toInt]
  exact ccTransform_of_ready _ s h

/-- Reading the signature word of a buffer whose bytes at 0x10 to 0x13 the host has written. -/
theorem State.readSignature_of_ready (s : State) (n : Nat) (hn : blockSize ≤ n) (hl : n = s.len) (hr : s.bufReady n) :
    ∃ b0 b1 b2 b3, memRead s.buf 0x10 = some b0 ∧ memRead s.buf 0x11 = some b1 ∧ memRead s.buf 0x12 = some b2 ∧
      memRead s.buf 0x13 = some b3 ∧ s.readBufWord sigOffset = .ok (littleEndianWord b0 b1 b2 b3) := by
  have get : ∀ i, i < 20 → ∃ b, memRead s.buf i = some b ∧ s.readBuf i = .ok b := by
    intro i hi
    have hin : i < n := Nat.lt_of_lt_of_le (Nat.lt_trans hi (by decide)) hn
    obtain ⟨b, hb⟩ := Option.isSome_iff_exists.mp (hr i hin)
    exact ⟨b, hb, (s.readBuf_eq_ok i b).mpr ⟨hl ▸ hin, hb⟩⟩
  obtain ⟨b0, h0, g0⟩ := get 0x10 (by decide)
  obtain ⟨b1, h1, g1⟩ := get 0x11 (by decide)
  obtain ⟨b2, h2, g2⟩ := get 0x12 (by decide)
  obtain ⟨b3, h3, g3⟩ := get 0x13 (by decide)
  exact ⟨b0, b1, b2, b3, h0, h1, h2, h3, s.readBufWord_of_bytes sigOffset b0 b1 b2 b3 g0 g1 g2 g3⟩

end Sys2Proof.Machine
end

