-- ==== Sys2Proof/Laws/PerInstr.lean ====
section
/-! SUPPORT. Statements made per instruction: where the encoder puts the fields of a command (R48, R49, R50). -/

namespace Sys2Proof.Laws.FieldsPlaced

open Sys2Proof

/-- R48: the operation code stands in bits 35..33, the present bit in bit 32, the argument in bits 31..0. -/
def Statement (i : Instr) : Prop :=
  CmdWord.op (encode i) = i.opcode ∧ CmdWord.present (encode i) = i.present ∧ CmdWord.arg (encode i) = i.argField

/-- The bits of a word built of the three fields. -/
theorem encodeFields_bit (op : BitVec 3) (p : Bool) (arg : BitVec 32) (n : Nat) :
    (encodeFields op p arg).getLsbD n =
      if n < 32 then arg.getLsbD n else if n - 32 < 1 then (BitVec.ofBool p).getLsbD (n - 32)
        else op.getLsbD (n - 32 - 1) := by
  have h1 := BitVec.getLsbD_append (x := op ++ BitVec.ofBool p) (y := arg) (i := n)
  have h2 := BitVec.getLsbD_append (x := op) (y := BitVec.ofBool p) (i := n - 32)
  rw [h2] at h1
  exact h1

/-- The three fields of R48 come back from a word built of them. -/
theorem fields (op : BitVec 3) (p : Bool) (arg : BitVec 32) :
    CmdWord.op (encodeFields op p arg) = op ∧ CmdWord.present (encodeFields op p arg) = p ∧
      CmdWord.arg (encodeFields op p arg) = arg := by
  refine ⟨BitVec.eq_of_getLsbD_eq fun n hn => ?_, ?_, BitVec.eq_of_getLsbD_eq fun n hn => ?_⟩
  · simp [CmdWord.op, encodeFields_bit, hn, show ¬ 33 + n < 32 by omega, show 33 + n - 32 = n + 1 by omega]
  · simp only [CmdWord.present, encodeFields_bit]
    cases p <;> rfl
  · simp [CmdWord.arg, encodeFields_bit, hn]

theorem ccEnc (p : Bool) (key : Int) : Statement (.ccEnc p key) := fields _ _ _
theorem ccDec (p : Bool) (key : Int) : Statement (.ccDec p key) := fields _ _ _
theorem rcEnc (p : Bool) (len : Nat) : Statement (.rcEnc p len) := fields _ _ _
theorem rcDec (p : Bool) (len : Nat) : Statement (.rcDec p len) := fields _ _ _
theorem rcAuto (p : Bool) (len : Nat) : Statement (.rcAuto p len) := fields _ _ _

end Sys2Proof.Laws.FieldsPlaced
end

