-- ==== Sys2Proof/Tests/Slice0.lean ====
section
/-! SUPPORT. The model's own tests: ill-formed commands, words written out from 30_encoding.md, the vectors of
95_test_vectors.md, and for every statement with hypotheses a state and operands that meet them. -/

namespace Sys2Proof.Tests

open Sys2Proof.Machine

/-! ### WellFormed: one ill-formed command for each check -/

theorem test_wellFormed_bounds :
    (Instr.ccEnc true (2 ^ 31 - 1)).wellFormed = true ∧ (Instr.ccDec true (-2 ^ 31)).wellFormed = true ∧
    (Instr.rcEnc true (2 ^ 32 - 1)).wellFormed = true ∧ (Instr.rcAuto false 0).wellFormed = true := by decide

theorem test_illFormed_ccEnc : (Instr.ccEnc true (2 ^ 31)).wellFormed = false := by decide
theorem test_illFormed_ccDec : (Instr.ccDec true (-2 ^ 31 - 1)).wellFormed = false := by decide
theorem test_illFormed_rcEnc : (Instr.rcEnc true (2 ^ 32)).wellFormed = false := by decide
theorem test_illFormed_rcDec : (Instr.rcDec false (2 ^ 32)).wellFormed = false := by decide
theorem test_illFormed_rcAuto : (Instr.rcAuto true (2 ^ 32)).wellFormed = false := by decide

/-! ### Decoding: words written out bit by bit, `OP`, `P`, `ARG` (30_encoding.md section 4, 95_test_vectors.md 7) -/

theorem test_decode_ccEnc :
    decode 0b000_1_00000000000000000000000000000101#36 = .ok (.ccEnc true 5) ∧
    decode 0x1FFFFFFFF#36 = .ok (.ccEnc true (-1)) := by decide

theorem test_decode_ccDec :
    decode 0b001_1_11111111111111111111111111111110#36 = .ok (.ccDec true (-2)) ∧
    decode 0x300000104#36 = .ok (.ccDec true 260) := by decide

theorem test_decode_rcEnc :
    decode 0b010_1_00000000000000000000001000000000#36 = .ok (.rcEnc true 512) ∧
    decode 0x5FFFFFFFF#36 = .ok (.rcEnc true 4294967295) := by decide

theorem test_decode_rcDec :
    decode 0b011_1_00000000000000000000001000000000#36 = .ok (.rcDec true 512) ∧
    decode 0x700000200#36 = .ok (.rcDec true 512) := by decide

theorem test_decode_rcAuto :
    decode 0b100_0_00000000000000000000000000000000#36 = .ok (.rcAuto false 0) ∧
    decode 0x900000400#36 = .ok (.rcAuto true 1024) := by decide

theorem test_decode_illegal :
    decode 0xA00000000#36 = .error (.reservedOp 5#3) ∧ decode 0xC12345678#36 = .error (.reservedOp 6#3) ∧
    decode 0xFFFFFFFFF#36 = .error (.reservedOp 7#3) := by decide

/-- 30_encoding.md section 4. -/
theorem test_encode :
    encode (.ccDec true (-1)) = 0x3FFFFFFFF#36 ∧ encode (.ccDec false 4) = 0x200000004#36 ∧
    encode (.rcEnc true 511) = 0x5000001FF#36 := by decide

/-- A bit above bit 35 makes no command word (R47). -/
theorem test_decodeTableWord :
    decodeTableWord 36 0x900000400 = some (.rcAuto true 1024) ∧ decodeTableWord 40 0x900000400 = some (.rcAuto true 1024) ∧
    decodeTableWord 40 0xF900000400 = none ∧ decodeTableWord 36 0xE00000000 = none := by decide

/-! ### Small states -/

/-- TOY of 95_test_vectors.md section 0: the spec's stand-in, not the hardware's configuration. -/
def toyPerm (k : Key) (j : Nat) (low : List Byte) : Equiv.Perm Byte where
  toFun x := (x ^^^ low.getLastD 0#8) - BitVec.ofNat 8 (16 * k.toByte.toNat + j)
  invFun y := (y + BitVec.ofNat 8 (16 * k.toByte.toNat + j)) ^^^ low.getLastD 0#8
  left_inv x := by simp
  right_inv y := by simp

/-- TOY, with each value of `CC_FAIL_WRITES_B0`. -/
def toy (writesB0 : Bool) : Config where
  seeds1 t := BitVec.ofNat 8 (7 * t + 3)
  seeds2 t := BitVec.ofNat 8 (13 * t + 0x55)
  codePerm := toyPerm
  ccFailWritesB0 := writesB0

/-- A state with the record written, nothing in `BUF` and no move planned. -/
def recState (r : Vector Byte 6) : State :=
  { State.reset with record := r, recordWritten := Vector.replicate 6 true }

/-- `n` cells with rising offsets from `a`. -/
def cellsFrom (f : Nat → Byte) : Nat → Nat → List Host.Cell
  | _, 0 => []
  | a, n + 1 => (a, f a) :: cellsFrom f (a + 1) n

/-- A state with a buffer of `n` written bytes, `f i` at offset `i`, under tables of the two functions. -/
def bufState (s1 s2 : Nat → Byte) (n : Nat) (f : Nat → Byte) : State :=
  { State.reset with
    buf := cellsFrom f 0 n, len := n,
    seeds1 := Vector.ofFn fun t => s1 t, seeds2 := Vector.ofFn fun t => s2 t }

/-- A state with the next move given. -/
def planned (s : State) (e : List Event) : State := { s with agenda := e }

/-- What a next state's record and results are. -/
def recordAfter : Host.Outcome State Fault Refusal → Option (Vector Byte 6 × List Nat)
  | .next t => some (t.record, t.results.map fun r => r.result.code)
  | _ => none

/-- What a next state's bytes at some offsets and results are. -/
def bytesAfter (at_ : List Nat) : Host.Outcome State Fault Refusal → Option (List (Option Byte) × List Nat)
  | .next t => some (at_.map (memRead t.buf), t.results.map fun r => r.result.code)
  | _ => none

theorem cellsFrom_mem (f : Nat → Byte) (a n : Nat) (c : Host.Cell) (h : c ∈ cellsFrom f a n) :
    a ≤ c.1 ∧ c.1 < a + n := by
  induction n generalizing a with
  | zero => cases h
  | succ n ih =>
    rcases List.mem_cons.mp h with rfl | h
    · exact ⟨Nat.le_refl a, by simp⟩
    · have := ih (a + 1) h
      omega

theorem cellsFrom_wf (f : Nat → Byte) (a n : Nat) : Memory.wf (cellsFrom f a n) := by
  induction n generalizing a with
  | zero => exact List.Pairwise.nil
  | succ n ih => exact List.Pairwise.cons (fun c h => (cellsFrom_mem f (a + 1) n c h).1) (ih (a + 1))

theorem memRead_cellsFrom (f : Nat → Byte) (a n i : Nat) (h : a ≤ i) (h' : i < a + n) :
    memRead (cellsFrom f a n) i = some (f i) := by
  induction n generalizing a with
  | zero => omega
  | succ n ih =>
    rw [cellsFrom, memRead_cons]
    split
    · rename_i e
      rw [← e]
    · rename_i e
      exact ih (a + 1) (by have : a ≠ i := e; omega) (by omega)

theorem bufState_inv (s1 s2 : Nat → Byte) (n : Nat) (f : Nat → Byte) : (bufState s1 s2 n f).Inv :=
  ⟨cellsFrom_wf f 0 n, fun c h => by have := (cellsFrom_mem f 0 n c h).2; rwa [Nat.zero_add] at this, trivial, trivial⟩

theorem bufState_byte (s1 s2 : Nat → Byte) (n : Nat) (f : Nat → Byte) (i : Nat) (h : i < n) :
    memRead (bufState s1 s2 n f).buf i = some (f i) :=
  memRead_cellsFrom f 0 n i (Nat.zero_le i) (by rwa [Nat.zero_add])

theorem bufState_ready (s1 s2 : Nat → Byte) (n : Nat) (f : Nat → Byte) : (bufState s1 s2 n f).bufReady n :=
  fun i h => by rw [bufState_byte s1 s2 n f i h]; rfl

theorem bufState_readBuf (s1 s2 : Nat → Byte) (n : Nat) (f : Nat → Byte) (i : Nat) (h : i < n) :
    (bufState s1 s2 n f).readBuf i = .ok (f i) :=
  ((bufState s1 s2 n f).readBuf_eq_ok i (f i)).mpr ⟨h, bufState_byte s1 s2 n f i h⟩

theorem recState_ready (r : Vector Byte 6) : (recState r).recordReady := by
  show ∀ j : Fin 6, (Vector.replicate 6 true)[j] = true
  decide

/-- The scenario record of the document, V-S8. -/
def scenario : Vector Byte 6 := #v[0x01#8, 0x23#8, 0x45#8, 0x67#8, 0x89#8, 0xAB#8]

/-- A record whose low nibble is `n`, as V-S8's otherwise. -/
def nibbleRecord (n : Byte) : Vector Byte 6 := scenario.set 0 n

/-- 512 bytes of 0 but the signature at 0x10, V-T6. -/
def signed (i : Nat) : Byte :=
  if i = 0x10 then 0x53#8 else if i = 0x11 then 0x6F#8 else if i = 0x12 then 0x6E#8 else if i = 0x13 then 0x79#8 else 0#8

/-- The tables of TOY. -/
def toyBuf (n : Nat) (f : Nat → Byte) : State :=
  bufState (fun t => BitVec.ofNat 8 (7 * t + 3)) (fun t => BitVec.ofNat 8 (13 * t + 0x55)) n f

/-- `RC.ENC` on a written buffer ends. -/
theorem rcEnc_ends (n : Nat) (h : 512 ≤ n) (f : Nat → Byte) : ∃ t, exec (.rcEnc true n) (toyBuf n f) = .next t :=
  ⟨_, (rcChecked_of_valid n (toyBuf n f) _ h rfl).trans
    (rcPass_of_ready n _ _ (bufState_inv _ _ n f).bufSorted (bufState_ready _ _ n f))⟩

/-- `RC.DEC` on a written buffer ends. -/
theorem rcDec_ends (n : Nat) (h : 512 ≤ n) (f : Nat → Byte) : ∃ t, exec (.rcDec true n) (toyBuf n f) = .next t :=
  ⟨_, (rcChecked_of_valid n (toyBuf n f) _ h rfl).trans
    (rcPass_of_ready n _ _ (bufState_inv _ _ n f).bufSorted (bufState_ready _ _ n f))⟩

/-! ### Vectors of 95_test_vectors.md -/

/-- V-K1, key 5 (TOY). -/
theorem test_ccEnc_toy :
    recordAfter (ccEncrypt (toy false) true 5 (recState scenario)) =
      some (#v[0x04#8, 0xD6#8, 0x14#8, 0xCF#8, 0x9A#8, 0xCD#8], [0]) := by decide

/-- V-C13 and V-C15, with `CC_FAIL_WRITES_B0` true: 3 gives 02, auto gives FE. -/
theorem test_ccEnc_failures :
    recordAfter (ccEncrypt (toy true) true 3 (recState scenario)) = some (scenario.set 0 0x02#8, [2]) ∧
    recordAfter (ccEncrypt (toy true) true (-1) (recState scenario)) = some (scenario.set 0 0xFE#8, [1]) := by decide

/-- V-K3, auto on `37DEADBE EFCA` resolves key 7 (TOY). -/
theorem test_ccDec_auto_toy :
    recordAfter (ccDecrypt (toy false) true (-1) (recState #v[0x37#8, 0xDE#8, 0xAD#8, 0xBE#8, 0xEF#8, 0xCA#8])) =
      some (#v[0x30#8, 0x78#8, 0x67#8, 0x56#8, 0x35#8, 0x0A#8], [0]) := by decide

/-- V-C8 and V-C19 with `CC_FAIL_WRITES_B0` true: a bad nibble clears it, key 260 is not key 4. -/
theorem test_ccDec_failures :
    recordAfter (ccDecrypt (toy false) true (-1) (recState #v[0x1A#8, 0x2B#8, 0x3C#8, 0x4D#8, 0x5E#8, 0x6F#8])) =
      some (#v[0x10#8, 0x2B#8, 0x3C#8, 0x4D#8, 0x5E#8, 0x6F#8], [2]) ∧
    recordAfter (ccDecrypt (toy true) true 260 (recState #v[0x84#8, 0#8, 0#8, 0#8, 0#8, 0#8])) =
      some (#v[0x80#8, 0#8, 0#8, 0#8, 0#8, 0#8], [2]) := by decide

/-- V-R1, V-R2, V-R6, V-R9: the per-byte arithmetic, both directions. -/
theorem test_rom_bytes :
    romEncByte 0x0F#8 0x30#8 0x20#8 = 0xFF#8 ∧ romDecByte 0x0F#8 0x30#8 0x20#8 = 0x5F#8 ∧
    romEncByte 0#8 1#8 0#8 = 0xFF#8 ∧ romDecByte 0xAA#8 0x55#8 0#8 = 0xFF#8 ∧
    romDecByte 0xFF#8 0x11#8 0x10#8 = 0#8 := by decide

/-- V-T1 (TOY): 512 bytes of 0 encrypted. -/
theorem test_rcEnc_toy :
    bytesAfter [0, 1, 7, 0x10] (exec (.rcEnc true 512) (toyBuf 512 fun _ => 0#8)) =
      some ([some 0xA8#8, some 0x94#8, some 0x64#8, some 0xA8#8], [0]) := by decide +kernel

/-- V-T2 (TOY): 512 bytes of 0 decrypted. -/
theorem test_rcDec_toy :
    bytesAfter [0, 1, 7, 0x10] (exec (.rcDec true 512) (toyBuf 512 fun _ => 0#8)) =
      some ([some 0x58#8, some 0x6C#8, some 0xE4#8, some 0x98#8], [0]) := by decide +kernel

/-- V-T6 (TOY): the signature selects encryption. -/
theorem test_rcAuto_signature :
    bytesAfter [0, 0x10, 0x11, 0x12, 0x13] (exec (.rcAuto true 512) (toyBuf 512 signed)) =
      some ([some 0xA8#8, some 0x5D#8, some 0x47#8, some 0xAE#8, some 0xA5#8], [0]) := by decide +kernel

/-- V-T3 (TOY): without it `RC.AUTO` decrypts. -/
theorem test_rcAuto_other :
    bytesAfter [0, 0x10] (exec (.rcAuto true 512) (toyBuf 512 fun _ => 0#8)) =
      some ([some 0x58#8, some 0x98#8], [0]) := by decide +kernel

/-- V-R13 and V-R17: a short buffer, and an absent one, are left as they are. -/
theorem test_rc_invalid :
    bytesAfter [0, 1] (exec (.rcEnc true 511) (toyBuf 2 fun _ => 7#8)) = some ([some 7#8, some 7#8], [1]) ∧
    bytesAfter [0, 1] (exec (.rcDec false 1024) (toyBuf 2 fun _ => 7#8)) = some ([some 7#8, some 7#8], [1]) := by decide

/-- V-C18, V-S7: the first instruction after reset, placed by its table word. -/
theorem test_first_step :
    recordAfter (step (State.reset.withFetchWord 36 0x000000003)) = some (Vector.replicate 6 0#8, [1]) ∧
    recordAfter (step (State.reset.withFetchWord 40 0x800000000)) = some (Vector.replicate 6 0#8, [1]) := by decide

/-! ### Notation (R58 to R60) -/

theorem test_commandText :
    commandText (.rcAuto false 0) = "RC.AUTO null, 0" ∧ commandText (.ccDec true (-1)) = "CC.DEC rec, -1" := by decide

theorem test_readCommand :
    readCommand "CC.DEC rec, auto ; the auto key" = some (.ccDec true (-1)) ∧
    readCommand "RC.ENC buf, 0x200" = some (.rcEnc true 512) ∧ readCommand "RC.ENC rec, 512" = none ∧
    readCommand "CC.ENC null, 5" = some (.ccEnc false 5) ∧ readCommand "RC.ENC buf, 4294967296" = none := by decide

theorem test_readLine :
    readLine ".rec 01234567 89ab" = some (recDirective scenario) ∧ readLine "; nothing" = some [] ∧
    readLine "CC.ENC rec, 5" = some [.call 0x100000005#36] := by decide

/-! ### Witnesses: for every statement with hypotheses, a state and operands that meet them together -/

/-! #### Encoding -/

theorem witness_DecodeOfEncode :
    (Instr.ccEnc true (2 ^ 31 - 1)).wellFormed = true ∧ (Instr.ccEnc true (-1)).wellFormed = true ∧
    (Instr.ccDec false (-2 ^ 31)).wellFormed = true ∧ (Instr.rcEnc true 0).wellFormed = true ∧
    (Instr.rcDec true (2 ^ 32 - 1)).wellFormed = true ∧ (Instr.rcAuto true 511).wellFormed = true := by decide

theorem witness_EncodeOfDecode : decode 0x9FFFFFFFF#36 = .ok (.rcAuto true (2 ^ 32 - 1)) := by decide

theorem witness_ReservedCodesAreRefused :
    5 ≤ (CmdWord.op 0xA00000000#36).toNat ∧ 5 ≤ (CmdWord.op 0xFFFFFFFFF#36).toNat ∧
    (planned State.reset [.call 0xA00000000#36]).agenda = .call 0xA00000000#36 :: [] ∧
    (planned State.reset [.issue 0xFFFFFFFFF#36]).agenda = .issue 0xFFFFFFFFF#36 :: [] := by decide

/-! #### The step and the host -/

/-- The word of `RC.AUTO null, 0` and its command. -/
def sampleWord : CmdWord := 0x800000000#36

/-- The command of `sampleWord`. -/
def sampleCommand : Instr := .rcAuto false 0

theorem witness_StepRunsCalledCommand :
    (planned State.reset [.call sampleWord]).agenda = .call sampleWord :: [] ∧
    decode sampleWord = .ok sampleCommand ∧
    (planned State.reset [.call sampleWord]).command sampleCommand.unit = none := by decide

theorem witness_PlacedWordRunsNext :
    decodeTableWord 40 0x3FFFFFFFF = some (.ccDec true (-1)) ∧ decodeTableWord 36 0x800000000 = some sampleCommand := by
  decide

theorem witness_IssueThenCompleteIsCall :
    (planned State.reset [.issue sampleWord, .complete .rc]).agenda =
      .issue sampleWord :: .complete sampleCommand.unit :: [] ∧
    decode sampleWord = .ok sampleCommand ∧
    (planned State.reset [.issue sampleWord, .complete .rc]).command sampleCommand.unit = none := by decide

/-- A state with a CC command and an RC command of present stores in progress. -/
def busyState : State :=
  { toyBuf 512 fun _ => 0#8 with ccCommand := some (.ccEnc true 4), rcCommand := some (.rcEnc true 512) }

theorem witness_EmptyAgendaDrains :
    (State.reset.agenda = [] ∧ State.reset.ccCommand = none ∧ State.reset.rcCommand = none) ∧
    (busyState.agenda = [] ∧ busyState.ccCommand = some (.ccEnc true 4)) ∧
    ({ busyState with ccCommand := none }.agenda = [] ∧ { busyState with ccCommand := none }.ccCommand = none ∧
      { busyState with ccCommand := none }.rcCommand = some (.rcEnc true 512)) := by decide

theorem witness_CompletionMove :
    ((planned busyState [.complete .cc]).agenda = .complete .cc :: [] ∧
      (planned busyState [.complete .cc]).command .cc = some (.ccEnc true 4)) ∧
    ((planned busyState [.complete .rc]).agenda = .complete .rc :: [] ∧
      (planned busyState [.complete .rc]).command .rc = some (.rcEnc true 512)) ∧
    (planned State.reset [.complete .rc]).agenda = .complete .rc :: [] ∧
      (planned State.reset [.complete .rc]).command .rc = none := by decide

theorem witness_HostReachesFreeStores :
    (planned State.reset [.hostWriteRecord 5 0xFF#8]).agenda = .hostWriteRecord 5 0xFF#8 :: [] ∧
    (planned State.reset [.hostReadRecord 0]).agenda = .hostReadRecord 0 :: [] ∧
    (planned State.reset []).storeHeld .cc = false ∧
    (planned (toyBuf 2 fun _ => 0#8) [.hostWriteBuf 1 9#8]).agenda = .hostWriteBuf 1 9#8 :: [] ∧
    (planned (toyBuf 2 fun _ => 0#8) [.hostReadBuf 0]).agenda = .hostReadBuf 0 :: [] ∧
    (planned (toyBuf 2 fun _ => 0#8) []).storeHeld .rc = false ∧
    1 < (toyBuf 2 fun _ => 0#8).len ∧ 0 < (toyBuf 2 fun _ => 0#8).len := by decide

theorem witness_HostChangesLength :
    (planned (toyBuf 2 fun _ => 0#8) [.hostSetLen 1]).agenda = .hostSetLen 1 :: [] ∧
    (planned (toyBuf 2 fun _ => 0#8) [.hostSetLen 1]).storeHeld .rc = false ∧
    memRead (toyBuf 2 fun _ => 0#8).buf 1 = some 0#8 := by decide

theorem witness_BusyUnitsAreExclusive :
    busyState.ccCommand = some (.ccEnc true 4) ∧ (Instr.ccEnc true 4).present = true ∧
    busyState.rcCommand = some (.rcEnc true 512) ∧ (Instr.rcEnc true 512).present = true ∧
    (planned busyState [.hostReadRecord 0]).agenda = .hostReadRecord 0 :: [] ∧
    (planned busyState [.hostWriteRecord 5 0#8]).agenda = .hostWriteRecord 5 0#8 :: [] ∧
    (planned busyState [.hostSetLen 0]).agenda = .hostSetLen 0 :: [] ∧
    (planned busyState [.hostWriteBuf 511 0#8]).agenda = .hostWriteBuf 511 0#8 :: [] ∧
    (planned busyState [.hostReadBuf 0]).agenda = .hostReadBuf 0 :: [] ∧
    decode sampleWord = .ok sampleCommand ∧ busyState.command sampleCommand.unit = some (.rcEnc true 512) ∧
    (planned busyState [.call sampleWord]).agenda = .call sampleWord :: [] ∧
    (planned busyState [.issue sampleWord]).agenda = .issue sampleWord :: [] := by decide

theorem witness_ResetMove :
    ((planned State.reset [.reset]).agenda = .reset :: [] ∧ (planned State.reset [.reset]).ccCommand = none ∧
      (planned State.reset [.reset]).rcCommand = none) ∧
    ((planned busyState [.reset]).agenda = .reset :: [] ∧ (planned busyState [.reset]).ccCommand.isSome = true) ∧
    { planned busyState [.reset] with ccCommand := none }.rcCommand.isSome = true := by decide

/-! #### Invariants -/

theorem step_rcDrain (s : State) (i : Instr) (ha : s.agenda = []) (hc : s.ccCommand = none) (hr : s.rcCommand = none) :
    step (s.setCommand .rc (some i)) = exec i s := by
  obtain ⟨r, w, b, l, s1, s2, cc, rc, rs, ag⟩ := s
  subst ha hc hr
  rfl

/-- 512 bytes of 0 with `RC.ENC` in progress. -/
def encrypting : State := (toyBuf 512 fun _ => 0#8).setCommand .rc (some (.rcEnc true 512))

/-- One step from a sound state: an `RC.ENC` in progress on 512 bytes runs to its end. -/
theorem witness_StepKeepsInvariant : ∃ t, encrypting.Inv ∧ step encrypting = .next t := by
  obtain ⟨t, ht⟩ := rcEnc_ends 512 (by decide) fun _ => 0#8
  have hi : (toyBuf 512 fun _ => 0#8).Inv := bufState_inv _ _ 512 _
  exact ⟨t, ⟨hi.bufSorted, hi.bufInside, hi.ccSound, rfl, by decide⟩, (step_rcDrain _ _ rfl rfl rfl).trans ht⟩

theorem witness_NothingWritesTheTables :
    ∃ t, step (planned State.reset [.reset]) = .next t := ⟨_, rfl⟩

/-- A command called, and (`witness_StepKeepsInvariant`) one in progress that ends. -/
theorem witness_ResultsArePresentedOnce :
    ∃ t, (planned State.reset [.call sampleWord]).Inv ∧ step (planned State.reset [.call sampleWord]) = .next t :=
  ⟨_, ⟨List.Pairwise.nil, (fun _ h => nomatch h), trivial, trivial⟩, rfl⟩

/-! #### Every command -/

theorem witness_ResultFollowsOutcomeTable :
    (∃ t, exec (.ccEnc true 7) (recState scenario) = .next t) ∧
    (∃ t, exec (.ccDec true 8) (recState scenario) = .next t) ∧
    (∃ t, exec (.rcEnc true 512) (toyBuf 512 fun _ => 0#8) = .next t) ∧
    ∃ t, exec (.rcAuto true 511) State.reset = .next t :=
  ⟨⟨_, ccEncrypt_of_ready Config.hardware .k7 _ (recState_ready scenario)⟩, ⟨_, rfl⟩, rcEnc_ends 512 (by decide) _, ⟨_, rfl⟩⟩

theorem witness_CodeCipherFrame :
    (∃ t, exec (.ccEnc true 4) (recState scenario) = .next t) ∧
    (∃ t, exec (.ccDec false 4) (recState scenario) = .next t) ∧
    (∃ t, exec (.ccDec true 3) (recState scenario) = .next t) ∧
    verdict (recState scenario).record[(0 : Fin 6)] (.ccDec true 3) ≠ .ok :=
  ⟨⟨_, ccEncrypt_of_ready Config.hardware .k4 _ (recState_ready scenario)⟩, ⟨_, rfl⟩, ⟨_, rfl⟩, by decide⟩

theorem witness_RomCipherFrame :
    (∃ t, exec (.rcEnc true 512) (toyBuf 512 fun _ => 0#8) = .next t) ∧
    (∃ t, exec (.rcDec true 511) (toyBuf 512 fun _ => 0#8) = .next t) ∧
    ∃ t, exec (.rcAuto false 512) (toyBuf 512 fun _ => 0#8) = .next t :=
  ⟨rcEnc_ends 512 (by decide) _, ⟨_, rfl⟩, ⟨_, rfl⟩⟩

theorem witness_CommandsDependOnTheirStoreOnly :
    (SameStore .cc (recState scenario) { recState scenario with len := 7, results := [⟨.rc, .ok⟩] } ∧
      ∃ t, exec (.ccDec true 5) (recState scenario) = .next t) ∧
    SameStore .rc (toyBuf 512 fun _ => 0#8) { toyBuf 512 (fun _ => 0#8) with record := scenario } ∧
      ∃ t, exec (.rcEnc true 512) (toyBuf 512 fun _ => 0#8) = .next t :=
  ⟨⟨⟨rfl, rfl⟩, ⟨_, ccDecrypt_of_ready Config.hardware .k5 _ (recState_ready scenario)⟩⟩, ⟨rfl, rfl, rfl, rfl⟩,
    rcEnc_ends 512 (by decide) _⟩

theorem witness_UnitsAreIndependent :
    (Instr.ccEnc true 3).unit = .cc ∧ (Instr.rcAuto true 511).unit = .rc ∧
    (∃ t u, exec (.ccEnc true 3) (recState scenario) = .next t ∧ exec (.rcAuto true 511) t = .next u) ∧
    ∃ t u, exec (.rcAuto true 511) (recState scenario) = .next t ∧ exec (.ccEnc true 3) t = .next u :=
  ⟨rfl, rfl, ⟨_, _, rfl, rfl⟩, _, _, rfl, rfl⟩

theorem witness_DutifulHostGetsAResult :
    ((recState scenario).Inv ∧ HostDuty (.ccEnc true 5) (recState scenario)) ∧
    ((toyBuf 512 signed).Inv ∧ HostDuty (.rcAuto true 512) (toyBuf 512 signed)) ∧
    State.reset.Inv ∧ ((Instr.rcEnc false 0).present = true → HostDuty (.rcEnc false 0) State.reset) :=
  ⟨⟨⟨List.Pairwise.nil, (fun _ h => nomatch h), trivial, trivial⟩, recState_ready scenario⟩,
    ⟨bufState_inv _ _ 512 signed, rfl, bufState_ready _ _ 512 signed⟩,
    ⟨List.Pairwise.nil, (fun _ h => nomatch h), trivial, trivial⟩, fun h => nomatch h⟩

/-! #### Code cipher -/

/-- For `CcEncClosedForm`, `CcDecClosedForm`, `CodeCipherRoundTrip` and `CodeCipherReverseRoundTrip`. -/
theorem witness_recordReady : (recState scenario).recordReady := recState_ready scenario

/-- The boundary nibbles 4 and 7, and 3 and 8 beside them. -/
theorem witness_CcDecAutoByNibble :
    ((recState (nibbleRecord 0xF4#8)).recordReady ∧
      (recState (nibbleRecord 0xF4#8)).record[(0 : Fin 6)] &&& 0x0F#8 = Key.k4.toByte) ∧
    ((recState (nibbleRecord 0x37#8)).recordReady ∧
      (recState (nibbleRecord 0x37#8)).record[(0 : Fin 6)] &&& 0x0F#8 = Key.k7.toByte) ∧
    ((recState (nibbleRecord 0xF3#8)).recordWritten[(0 : Fin 6)] = true ∧
      ∀ k : Key, (recState (nibbleRecord 0xF3#8)).record[(0 : Fin 6)] &&& 0x0F#8 ≠ k.toByte) ∧
    (recState (nibbleRecord 0xF8#8)).recordWritten[(0 : Fin 6)] = true ∧
      ∀ k : Key, (recState (nibbleRecord 0xF8#8)).record[(0 : Fin 6)] &&& 0x0F#8 ≠ k.toByte :=
  ⟨⟨recState_ready _, by decide⟩, ⟨recState_ready _, by decide⟩, ⟨by decide, fun k => by cases k <;> decide⟩,
    by decide, fun k => by cases k <;> decide⟩

theorem witness_KeyFailuresLeave :
    (recState scenario).recordWritten[(0 : Fin 6)] = true ∧ ¬ (4 ≤ (3 : Int) ∧ (3 : Int) ≤ 7) ∧
    ¬ (4 ≤ (8 : Int) ∧ (8 : Int) ≤ 7) ∧ ¬ (4 ≤ (-1 : Int) ∧ (-1 : Int) ≤ 7) ∧ (3 : Int) ≠ -1 ∧ (8 : Int) ≠ -1 := by
  decide

/-- All registers written but the last. -/
def lastRegisterUnwritten (r : Vector Byte 6) : State :=
  { recState r with recordWritten := (Vector.replicate 6 true).set 5 false }

/-- The auto key at its boundary nibbles 4 and 7. -/
theorem witness_UnwrittenRecordFaults :
    State.reset.recordWritten[(0 : Fin 6)] = false ∧
    (lastRegisterUnwritten scenario).recordWritten[(5 : Fin 6)] = false ∧
    ((lastRegisterUnwritten (nibbleRecord 0xF4#8)).recordWritten[(5 : Fin 6)] = false ∧
      (lastRegisterUnwritten (nibbleRecord 0xF4#8)).record[(0 : Fin 6)] &&& 0x0F#8 = Key.k4.toByte) ∧
    (lastRegisterUnwritten (nibbleRecord 0x37#8)).recordWritten[(5 : Fin 6)] = false ∧
      (lastRegisterUnwritten (nibbleRecord 0x37#8)).record[(0 : Fin 6)] &&& 0x0F#8 = Key.k7.toByte := by decide

theorem witness_ExplicitKeyKeepsHighBits :
    3 ≤ 3 ∧ (∃ t, exec (.ccEnc true Key.k7.toInt) (recState scenario) = .next t) ∧
    ∃ t, exec (.ccDec true Key.k7.toInt) (recState scenario) = .next t :=
  ⟨Nat.le_refl 3, ⟨_, ccEncrypt_of_ready Config.hardware .k7 _ (recState_ready scenario)⟩,
    ⟨_, ccDecrypt_of_ready Config.hardware .k7 _ (recState_ready scenario)⟩⟩

/-- Both sides of the condition: a low nibble of 0, and one of 1. -/
theorem witness_AutoRoundTripIffNibbleZero :
    ((recState (nibbleRecord 0x80#8)).recordReady ∧
      (recState (nibbleRecord 0x80#8)).record[(0 : Fin 6)] &&& 0x0F#8 = 0#8) ∧
    (recState scenario).recordReady ∧ (recState scenario).record[(0 : Fin 6)] &&& 0x0F#8 ≠ 0#8 :=
  ⟨⟨recState_ready _, by decide⟩, recState_ready _, by decide⟩

theorem witness_RetryingAFailure :
    (∃ t, exec (.ccDec true (-1)) (recState scenario) = .next t ∧
      t.results = (recState scenario).results ++ [⟨.cc, .unsupportedKey⟩]) ∧
    (∃ t, exec (.rcDec true 511) State.reset = .next t ∧ t.results = State.reset.results ++ [⟨.rc, .invalidInput⟩]) ∧
    (toy true).ccFailWritesB0 = true ∧ ¬ (4 ≤ (8 : Int) ∧ (8 : Int) ≤ 7) ∧ (8 : Int) ≠ -1 ∧
    (∃ t, ccEncrypt (toy true) true 8 (recState scenario) = .next t) ∧
    ∃ t, ccDecrypt (toy true) true 8 (recState scenario) = .next t :=
  ⟨⟨_, rfl, rfl⟩, ⟨_, rfl, rfl⟩, rfl, by decide, by decide, ⟨_, rfl⟩, ⟨_, rfl⟩⟩

/-! #### ROM cipher -/

theorem witness_ShortOrAbsentBufferIsInvalid : 511 < 512 ∧ (false = false ∨ 512 < 512) := by decide

theorem witness_TablesAreIndexedModulo512 : 512 < 513 ∧ 513 / 512 * 512 ≤ 512 := by decide

/-- For `RcEncPerByte` and `RcDecPerByte`: 512 bytes, offsets 0 and 511, and the tables of the rules' examples. -/
theorem witness_RcPerByte :
    (toyBuf 512 signed).Inv ∧ 512 = (toyBuf 512 signed).len ∧ (toyBuf 512 signed).bufReady 512 ∧
    memRead (toyBuf 512 signed).buf 0 = some 0#8 ∧ memRead (toyBuf 512 signed).buf 511 = some 0#8 ∧ 512 < 2 ^ 32 :=
  ⟨bufState_inv _ _ 512 signed, rfl, bufState_ready _ _ 512 signed, bufState_byte _ _ 512 signed 0 (by decide),
    bufState_byte _ _ 512 signed 511 (by decide), by decide⟩

theorem witness_RcPerByte_example (b : Byte) :
    (bufState (fun _ => 0x0F#8) (fun _ => 0x30#8) 512 fun _ => b).Inv ∧
    512 = (bufState (fun _ => 0x0F#8) (fun _ => 0x30#8) 512 fun _ => b).len ∧
    (bufState (fun _ => 0x0F#8) (fun _ => 0x30#8) 512 fun _ => b).bufReady 512 ∧
    (bufState (fun _ => 0x0F#8) (fun _ => 0x30#8) 512 fun _ => b).seeds1[0] = 0x0F#8 ∧
    (bufState (fun _ => 0x0F#8) (fun _ => 0x30#8) 512 fun _ => b).seeds2[0] = 0x30#8 ∧
    memRead (bufState (fun _ => 0x0F#8) (fun _ => 0x30#8) 512 fun _ => b).buf 0 = some b :=
  ⟨bufState_inv _ _ 512 _, rfl, bufState_ready _ _ 512 _, by simp [bufState], by simp [bufState],
    bufState_byte _ _ 512 _ 0 (by decide)⟩

theorem witness_SignatureIsLittleEndian :
    ((toyBuf 512 signed).readBuf 0x10 = .ok 0x53#8 ∧ (toyBuf 512 signed).readBuf 0x11 = .ok 0x6F#8 ∧
      (toyBuf 512 signed).readBuf 0x12 = .ok 0x6E#8 ∧ (toyBuf 512 signed).readBuf 0x13 = .ok 0x79#8) ∧
    (toyBuf 20 fun _ => 0#8).readBuf 0x10 = .ok 0#8 ∧ (toyBuf 20 fun _ => 0#8).readBuf 0x11 = .ok 0#8 ∧
    (toyBuf 20 fun _ => 0#8).readBuf 0x12 = .ok 0#8 ∧ (toyBuf 20 fun _ => 0#8).readBuf 0x13 = .ok 0#8 :=
  ⟨⟨bufState_readBuf _ _ 512 signed _ (by decide), bufState_readBuf _ _ 512 signed _ (by decide),
    bufState_readBuf _ _ 512 signed _ (by decide), bufState_readBuf _ _ 512 signed _ (by decide)⟩,
    bufState_readBuf _ _ 20 _ _ (by decide), bufState_readBuf _ _ 20 _ _ (by decide),
    bufState_readBuf _ _ 20 _ _ (by decide), bufState_readBuf _ _ 20 _ _ (by decide)⟩

/-- With the signature, and with one bit of it off (V-R12). -/
theorem witness_RcAutoChoosesDirection :
    ((toyBuf 512 signed).Inv ∧ (toyBuf 512 signed).bufReady 512 ∧ 512 = (toyBuf 512 signed).len ∧
      memRead (toyBuf 512 signed).buf 0x10 = some 0x53#8 ∧ memRead (toyBuf 512 signed).buf 0x11 = some 0x6F#8 ∧
      memRead (toyBuf 512 signed).buf 0x12 = some 0x6E#8 ∧ memRead (toyBuf 512 signed).buf 0x13 = some 0x79#8) ∧
    (toyBuf 512 fun i => if i = 0x13 then 0x78#8 else signed i).Inv ∧
      (toyBuf 512 fun i => if i = 0x13 then 0x78#8 else signed i).bufReady 512 ∧
      memRead (toyBuf 512 fun i => if i = 0x13 then 0x78#8 else signed i).buf 0x13 ≠ some 0x79#8 :=
  ⟨⟨bufState_inv _ _ 512 signed, bufState_ready _ _ 512 signed, rfl, bufState_byte _ _ 512 signed _ (by decide),
    bufState_byte _ _ 512 signed _ (by decide), bufState_byte _ _ 512 signed _ (by decide),
    bufState_byte _ _ 512 signed _ (by decide)⟩, bufState_inv _ _ 512 _, bufState_ready _ _ 512 _, fun h => by
      have h' := bufState_byte (fun t => BitVec.ofNat 8 (7 * t + 3)) (fun t => BitVec.ofNat 8 (13 * t + 0x55)) 512
        (fun i => if i = 0x13 then 0x78#8 else signed i) 0x13 (by decide)
      exact absurd (h'.symm.trans h) (by decide)⟩

/-- For `RomCipherRoundTrip` and `RomCipherReverseRoundTrip`, at 512 and at a length that is no multiple of it (V-T5). -/
theorem witness_RomCipherRoundTrip :
    ((toyBuf 512 signed).Inv ∧ 512 = (toyBuf 512 signed).len ∧ (toyBuf 512 signed).bufReady 512) ∧
    512 ≤ 1030 ∧ (toyBuf 1030 signed).Inv ∧ 1030 = (toyBuf 1030 signed).len ∧ (toyBuf 1030 signed).bufReady 1030 :=
  ⟨⟨bufState_inv _ _ 512 signed, rfl, bufState_ready _ _ 512 signed⟩, by decide, bufState_inv _ _ 1030 signed, rfl,
    bufState_ready _ _ 1030 signed⟩

/-- Offset 0 of a buffer of 512 bytes against offset 512 of one of 513. -/
theorem witness_RomCipherIsPerOffset :
    (toyBuf 512 fun _ => 0#8).seeds1 = (toyBuf 513 fun _ => 0#8).seeds1 ∧
    (toyBuf 512 fun _ => 0#8).seeds2 = (toyBuf 513 fun _ => 0#8).seeds2 ∧ 0 % 512 = 512 % 512 ∧
    memRead (toyBuf 512 fun _ => 0#8).buf 0 = memRead (toyBuf 513 fun _ => 0#8).buf 512 ∧
    (∃ t, exec (.rcEnc true 512) (toyBuf 512 fun _ => 0#8) = .next t) ∧
    (∃ t, exec (.rcEnc true 513) (toyBuf 513 fun _ => 0#8) = .next t) ∧
    (∃ t, exec (.rcDec true 512) (toyBuf 512 fun _ => 0#8) = .next t) ∧
    ∃ t, exec (.rcDec true 513) (toyBuf 513 fun _ => 0#8) = .next t := by
  exact ⟨rfl, rfl, rfl,
    (bufState_byte _ _ 512 _ 0 (by decide)).trans (bufState_byte _ _ 513 (fun _ => 0#8) 512 (by decide)).symm,
    rcEnc_ends 512 (by decide) _, rcEnc_ends 513 (by decide) _, rcDec_ends 512 (by decide) _, rcDec_ends 513 (by decide) _⟩

/-- Whether a next state's word at 0x10 is the signature. -/
def signedAfter : Host.Outcome State Fault Refusal → Bool
  | .next t =>
    match t.readBufWord 0x10 with
    | .ok w => w == 0x796E6F53#32
    | .error _ => false
  | _ => false

theorem signed_word (s1 s2 : Nat → Byte) : (bufState s1 s2 512 signed).readBufWord 0x10 = .ok 0x796E6F53#32 :=
  State.readBufWord_of_bytes _ _ _ _ _ _ (bufState_readBuf s1 s2 512 signed _ (by decide))
    (bufState_readBuf s1 s2 512 signed _ (by decide)) (bufState_readBuf s1 s2 512 signed _ (by decide))
    (bufState_readBuf s1 s2 512 signed _ (by decide))

/-- TOY's tables take the signature away; tables of zeros, the identity, keep it. -/
theorem witness_AutoTwiceFromSignature :
    ((toyBuf 512 signed).Inv ∧ 512 = (toyBuf 512 signed).len ∧ (toyBuf 512 signed).bufReady 512 ∧
      (toyBuf 512 signed).readBufWord 0x10 = .ok 0x796E6F53#32 ∧
      signedAfter (exec (.rcAuto true 512) (toyBuf 512 signed)) = false) ∧
    (bufState (fun _ => 0#8) (fun _ => 0#8) 512 signed).Inv ∧
      (bufState (fun _ => 0#8) (fun _ => 0#8) 512 signed).bufReady 512 ∧
      (bufState (fun _ => 0#8) (fun _ => 0#8) 512 signed).readBufWord 0x10 = .ok 0x796E6F53#32 ∧
      signedAfter (exec (.rcAuto true 512) (bufState (fun _ => 0#8) (fun _ => 0#8) 512 signed)) = true :=
  ⟨⟨bufState_inv _ _ 512 signed, rfl, bufState_ready _ _ 512 signed, signed_word _ _, by decide +kernel⟩,
    bufState_inv _ _ 512 signed, bufState_ready _ _ 512 signed, signed_word _ _, by decide +kernel⟩

/-- 511 bytes written of a buffer of 512: the last is the unwritten one. -/
def lastUnwritten : State := { State.reset with buf := cellsFrom (fun _ => 0#8) 0 511, len := 512 }

theorem witness_UnwrittenBufferFaults :
    lastUnwritten.Inv ∧ 512 = lastUnwritten.len ∧ 511 < 512 ∧ memRead lastUnwritten.buf 511 = none ∧
    lastUnwritten.bufReady 511 := by
  have h : ∀ c ∈ lastUnwritten.buf, c.1 < 511 := fun c hc => by
    have := (cellsFrom_mem (fun _ => 0#8) 0 511 c hc).2
    omega
  exact ⟨⟨cellsFrom_wf (fun _ => 0#8) 0 511, fun c hc => Nat.lt_succ_of_lt (h c hc), trivial, trivial⟩, rfl, by decide,
    memRead_eq_none _ _ fun c hc => Nat.ne_of_lt (h c hc), bufState_ready (fun _ => 0#8) (fun _ => 0#8) 511 fun _ => 0#8⟩

theorem witness_WrongLengthIsRefused : 512 ≤ 512 ∧ 512 ≠ (toyBuf 511 fun _ => 0#8).len := by decide

end Sys2Proof.Tests
end

section
/-! PROOFS. The seed tables are constant (R22): each command changes only its unit's store and the results, each move
of the host leaves the tables, so every step does. -/

namespace Sys2Proof.Machine

/-! ### What a command leaves unchanged -/

/-- R16, R104: a next state of the operation behind `CC.ENC` differs from the state before in `REC` and the results
only. -/
theorem ccEncrypt_frame (cfg : Config) (p : Bool) (key : Int) (s t : State) (h : ccEncrypt cfg p key s = .next t) :
    t = { s with record := t.record, results := t.results } := by
  obtain ⟨-, rfl⟩ | ⟨-, -, ⟨-, rfl⟩ | ⟨-, -, rfl⟩ | ⟨k, -, -, rfl⟩⟩ := ccEncrypt_eq_next cfg p key s t h <;> rfl

/-- R16, R104: the same of the operation behind `CC.DEC`. -/
theorem ccDecrypt_frame (cfg : Config) (p : Bool) (key : Int) (s t : State) (h : ccDecrypt cfg p key s = .next t) :
    t = { s with record := t.record, results := t.results } := by
  obtain ⟨-, rfl⟩ | ⟨-, -, ⟨-, -, rfl⟩ | ⟨-, k, -, -, rfl⟩ | ⟨-, -, rfl⟩ | ⟨k, -, -, rfl⟩⟩ :=
    ccDecrypt_eq_next cfg p key s t h <;> rfl

/-- R83, R84: a pass that ends changes `BUF` and the results only. -/
theorem rcPass_frame (n : Nat) (f : Nat → Byte → Byte) (s t : State) (h : rcPass n f s = .next t) :
    t = { s with buf := t.buf, results := t.results } := by
  obtain rfl := rcPass_eq_next n f s t h
  rfl

/-- R82: the input check adds no change to those of the operation it guards. -/
theorem rcChecked_frame (p : Bool) (n : Nat) (s t : State) (body : Host.Outcome State Fault Refusal)
    (hbody : body = .next t → t = { s with buf := t.buf, results := t.results })
    (h : rcChecked p n s body = .next t) : t = { s with buf := t.buf, results := t.results } := by
  obtain ⟨-, rfl⟩ | ⟨-, -, -, hb⟩ := rcChecked_eq_next p n s t body h
  · rfl
  · exact hbody hb

/-- R2, R16: a command of the CC unit that ends changes `REC` and the results only. -/
theorem exec_cc_frame (i : Instr) (s t : State) (hu : i.unit = .cc) (h : exec i s = .next t) :
    t = { s with record := t.record, results := t.results } := by
  cases i with
  | ccEnc p key => exact ccEncrypt_frame _ p key s t h
  | ccDec p key => exact ccDecrypt_frame _ p key s t h
  | rcEnc | rcDec | rcAuto => cases hu

/-- R2, R19: a command of the RC unit that ends changes `BUF` and the results only. -/
theorem exec_rc_frame (i : Instr) (s t : State) (hu : i.unit = .rc) (h : exec i s = .next t) :
    t = { s with buf := t.buf, results := t.results } := by
  cases i with
  | ccEnc | ccDec => cases hu
  | rcEnc p n => exact rcChecked_frame p n s t _ (rcPass_frame n s.romEncAt s t) h
  | rcDec p n => exact rcChecked_frame p n s t _ (rcPass_frame n s.romDecAt s t) h
  | rcAuto p n =>
    refine rcChecked_frame p n s t _ (fun hb => ?_) h
    obtain ⟨w, -, ⟨-, hp⟩ | ⟨-, hp⟩⟩ := rcAutoBody_eq_next n s t hb
    · exact rcPass_frame n s.romEncAt s t hp
    · exact rcPass_frame n s.romDecAt s t hp

/-! ### The tables through a step -/

/-- R22: the second state has the seed tables of the first. -/
def State.KeepsTables (s t : State) : Prop := t.seeds1 = s.seeds1 ∧ t.seeds2 = s.seeds2

theorem exec_keepsTables (i : Instr) (s t : State) (h : exec i s = .next t) : s.KeepsTables t := by
  cases hu : i.unit with
  | cc => rw [exec_cc_frame i s t hu h]; exact ⟨rfl, rfl⟩
  | rc => rw [exec_rc_frame i s t hu h]; exact ⟨rfl, rfl⟩

theorem completeUnit_keepsTables (u : CoreUnit) (s t : State) (h : completeUnit u s = .next t) : s.KeepsTables t := by
  obtain ⟨-, rfl⟩ | ⟨i, -, hx⟩ := completeUnit_eq_next u s t h
  · exact ⟨rfl, rfl⟩
  · simpa [State.KeepsTables] using exec_keepsTables i _ t hx

/-- A reset that answers a next state answers `afterReset` (R113). -/
theorem hostReset_eq_next (s t : State) (h : hostReset s = .next t) :
    s.ccCommand = none ∧ s.rcCommand = none ∧ t = s.afterReset := by
  unfold hostReset at h
  split at h
  · cases h
  · rename_i hb
    simp only [Bool.or_eq_true, not_or, Option.not_isSome_iff_eq_none] at hb
    obtain ⟨hcc, hrc⟩ := hb
    exact ⟨hcc, hrc, (Host.Outcome.next.inj h).symm⟩

theorem runEvent_keepsTables (e : Event) (s t : State) (h : runEvent e s = .next t) : s.KeepsTables t := by
  cases e with
  | hostWriteRecord j v =>
    obtain ⟨-, h⟩ := hostAccess_eq_next _ _ _ _ h
    cases h; exact ⟨rfl, rfl⟩
  | hostReadRecord j =>
    obtain ⟨-, h⟩ := hostAccess_eq_next _ _ _ _ h
    cases h; exact ⟨rfl, rfl⟩
  | hostSetLen n =>
    obtain ⟨-, h⟩ := hostAccess_eq_next _ _ _ _ h
    cases h; exact ⟨rfl, rfl⟩
  | hostWriteBuf i v =>
    obtain ⟨-, -, h⟩ := hostBufAccess_eq_next _ _ _ _ h
    cases h; exact ⟨rfl, rfl⟩
  | hostReadBuf i =>
    obtain ⟨-, -, h⟩ := hostBufAccess_eq_next _ _ _ _ h
    cases h; exact ⟨rfl, rfl⟩
  | call w =>
    obtain ⟨i, -, -, hx⟩ := accept_eq_next w s t _ h
    exact exec_keepsTables i s t hx
  | issue w =>
    obtain ⟨i, -, -, hx⟩ := accept_eq_next w s t _ h
    cases hx; exact ⟨s.setCommand_seeds1 _ _, s.setCommand_seeds2 _ _⟩
  | complete u => exact completeUnit_keepsTables u s t h
  | reset =>
    obtain ⟨-, -, rfl⟩ := hostReset_eq_next s t h
    exact ⟨rfl, rfl⟩

/-- Settles O17: a step is one move of the agenda or the completion of a unit, and neither writes a table. -/
theorem nothingWritesTheTables : Obligations.NothingWritesTheTables := by
  intro s t h
  obtain ⟨e, rest, -, hr⟩ | ⟨-, u, hc⟩ := step_eq_next s t h
  · exact runEvent_keepsTables e { s with agenda := rest } t hr
  · exact completeUnit_keepsTables u s t hc

end Sys2Proof.Machine
end

section
/-! PROOFS. The seed tables as memory (R38): the entry an offset uses depends on the offset modulo 512 only. -/

namespace Sys2Proof.Machine

/-! ### The entry of an offset -/

/-- R28, R38: states with one table `SEEDS1` use the same entry of it at offsets that are equal modulo 512. -/
theorem State.seed1_congr {s t : State} {i j : Nat} (hs : s.seeds1 = t.seeds1) (hij : i % 512 = j % 512) :
    s.seed1 i = t.seed1 j := by
  simp only [State.seed1, blockSize, hs, hij]

/-- R28, R38: the same of `SEEDS2`. -/
theorem State.seed2_congr {s t : State} {i j : Nat} (hs : s.seeds2 = t.seeds2) (hij : i % 512 = j % 512) :
    s.seed2 i = t.seed2 j := by
  simp only [State.seed2, blockSize, hs, hij]

/-- R38: in a buffer of `n` bytes an offset at or above the last multiple of 512 not above `n`, so one of the trailing
partial block, has an index below `n mod 512`. -/
theorem index_lt_of_trailing_block {i n : Nat} (hi : i < n) (hblock : n / 512 * 512 ≤ i) : i % 512 < n % 512 := by
  have hsameBlock : i / 512 = n / 512 := by omega
  omega

/-- Settles O37: both reads are at the offset modulo 512, which adding 512 does not change. -/
theorem tablesAreIndexedModulo512 : Obligations.TablesAreIndexedModulo512 := by
  intro s i n
  have hperiod : (i + 512) % 512 = i % 512 := Nat.add_mod_right i 512
  exact ⟨⟨Nat.mod_lt i (by decide), rfl, rfl⟩, State.seed1_congr rfl hperiod, State.seed2_congr rfl hperiod,
    index_lt_of_trailing_block⟩

end Sys2Proof.Machine
end

section
/-! PROOFS. The round trip of the code cipher (R74): each decrypt step meets exactly the lower bytes that R67 asks for,
so the steps undo the encrypt steps one by one, from byte 1 up to byte 5. -/

namespace Sys2Proof.Machine

/-! ### The record -/

/-- R67 as the steps of a record use it: the encrypt step saw byte 0 masked, the decrypt step sees it as it was. -/
theorem decStep_encStep (g : CodeFormulas) (k : Key) {j : Nat} (x q : Byte) (low : List Byte)
    (hlen : low.length + 1 = j) (hj : j ≤ 5) :
    g.decStep k j (g.encStep k j x ((q ^^^ k.toByte) :: low)) (q :: low) = x :=
  g.inverse k j x (q :: low) (by omega) hj hlen

/-- R74 on records: byte 0 is unmasked first; then the step at `j` finds bytes 1 to `j - 1` already restored, which are
the bytes the encrypt step at `j` saw. -/
theorem decryptRecord_encryptRecord (g : CodeFormulas) (k : Key) (r : Vector Byte 6) :
    decryptRecord g k (encryptRecord g k r) = r := by
  obtain ⟨a, b, c, d, e, f, rfl⟩ := record_cases r
  rw [encryptRecord_mk, decryptRecord_mk, xor_cancel_right, decryptSteps_mk]
  simp only [decStep_encStep, List.length_cons, List.length_nil, Nat.reduceAdd, Nat.reduceLeDiff]

/-! ### The machine -/

/-- R74, R77: of two CC commands that end with `OK` one after the other there stay the second one's record and both
results. -/
theorem State.present_ok_twice (s : State) (q r : Vector Byte 6) :
    (((s.writeRecord q).present .cc .ok).writeRecord r).present .cc .ok =
      { s with record := r, results := s.results ++ [⟨.cc, .ok⟩, ⟨.cc, .ok⟩] } := by
  simp only [State.writeRecord, State.present, List.append_assoc, List.singleton_append]

/-- Settles O32: both commands end on a written record, and the second one's record is the first one's input. -/
theorem codeCipherRoundTrip : Obligations.CodeCipherRoundTrip := by
  refine ⟨fun s k hready => ?_, decryptRecord_encryptRecord⟩
  have henc := ccEncrypt_of_ready Config.hardware k s hready
  have hdec := ccDecrypt_of_ready Config.hardware k
    ((s.writeRecord (encryptRecord Config.hardware.formulas k s.record)).present .cc .ok) hready
  refine ⟨_, _, henc, hdec, ?_⟩
  rw [State.present_ok_twice, State.present_record, State.writeRecord_record, decryptRecord_encryptRecord]

end Sys2Proof.Machine
end

section
/-! PROOFS. The ROM cipher per byte (R83, R84): the pass of a transform, past the input check, on a buffer the host has
written, with each command's own transform then read off at one offset. -/

namespace Sys2Proof.Machine

/-! ### The command words -/

/-- R49, R52, R55: an RC command whose `LEN` fits its field comes back from its word. -/
theorem decode_encode_of_rc (i : Instr) (hunit : i.unit = .rc) (hfits : i.wellFormed = true) :
    decode (encode i) = .ok i := by
  have hfields : Laws.FieldsPlaced.Statement i := Laws.FieldsPlaced.fields _ _ _
  obtain ⟨hop, hpresent, harg⟩ := hfields
  cases i with
  | ccEnc | ccDec => cases hunit
  | rcEnc p n | rcDec p n | rcAuto p n =>
    have hlt : n < 2 ^ 32 := of_decide_eq_true hfits
    have hlen : (BitVec.ofNat 32 n).toNat = n := (BitVec.toNat_ofNat n 32).trans (Nat.mod_eq_of_lt hlt)
    simp [decode, hop, hpresent, harg, Instr.opcode, Instr.present, Instr.argField, hlen]

/-! ### The pass -/

/-- R82 to R85: past the input check the pass of a transform `f` ends with `OK`; it replaces the byte at every offset
below `LEN` by `f` of that offset and byte, and changes `BUF` and the results only. -/
theorem rcPass_perByte (f : Nat → Byte → Byte) {s : State} {n : Nat} (hblock : 512 ≤ n) (hinv : s.Inv)
    (hlen : n = s.len) (hready : s.bufReady n) :
    ∃ t, rcChecked true n s (rcPass n f s) = .next t ∧
      (∀ i b, i < n → memRead s.buf i = some b → memRead t.buf i = some (f i b)) ∧
      t = { s with buf := t.buf, results := s.results ++ [⟨.rc, .ok⟩] } := by
  refine ⟨_, (rcChecked_of_valid n s _ hblock hlen).trans (rcPass_of_ready n f s hinv.bufSorted hready), ?_, rfl⟩
  intro i b hi hb
  rw [State.present_buf, memRead_memMap, if_pos hi, hb, Option.map_some]

/-- Settles O38: the pass applies `romEncAt`, whose entries are those at the offset modulo 512. -/
theorem rcEncPerByte : Obligations.RcEncPerByte := by
  intro s p n
  refine ⟨rcChecked_of_invalid p n s _, fun hn => decode_encode_of_rc (.rcEnc p n) rfl (decide_eq_true hn),
    fun _ => index_lt_of_trailing_block, by decide, ?_⟩
  rintro rfl hblock hinv hlen hready
  obtain ⟨t, hexec, hbyte, hframe⟩ := rcPass_perByte s.romEncAt hblock hinv hlen hready
  refine ⟨t, hexec, fun i b _ => hbyte i b, fun h2 h1 hb => ?_, hframe⟩
  have hexample : s.romEncAt 0 0x20#8 = romEncByte 0x0F#8 0x30#8 0x20#8 := congrArg₂ (romEncByte · · 0x20#8) h1 h2
  rw [hbyte 0 _ (by omega) hb, hexample]
  decide

/-- Settles O39: the pass applies `romDecAt`, whose entries are those at the offset modulo 512. -/
theorem rcDecPerByte : Obligations.RcDecPerByte := by
  intro s p n
  refine ⟨rcChecked_of_invalid p n s _, fun hn => decode_encode_of_rc (.rcDec p n) rfl (decide_eq_true hn),
    fun _ => index_lt_of_trailing_block, by decide, ?_⟩
  rintro rfl hblock hinv hlen hready
  obtain ⟨t, hexec, hbyte, hframe⟩ := rcPass_perByte s.romDecAt hblock hinv hlen hready
  refine ⟨t, hexec, fun i c _ => hbyte i c, fun h1 h2 hc => ?_, hframe⟩
  have hexample : s.romDecAt 0 0xFF#8 = romDecByte 0x0F#8 0x30#8 0xFF#8 := congrArg₂ (romDecByte · · 0xFF#8) h1 h2
  rw [hbyte 0 _ (by omega) hc, hexample]
  decide

end Sys2Proof.Machine
end

section
/-! PROOFS. The command words (R48 to R55): the three fields make up the whole word, so decoding and encoding undo each
other. -/

namespace Sys2Proof

open Sys2Proof.Laws.FieldsPlaced (fields encodeFields_bit)

/-! ### Words and their fields -/

/-- R48 "There are no unused bits": a word is made up of its three fields. -/
theorem encodeFields_of_fields (w : CmdWord) :
    encodeFields (CmdWord.op w) (CmdWord.present w) (CmdWord.arg w) = w := by
  refine BitVec.eq_of_getLsbD_eq fun n hn => ?_
  rw [encodeFields_bit]
  split_ifs with harg hpresent
  · simp [CmdWord.arg, harg]
  · obtain rfl : n = 32 := by omega
    simp [CmdWord.present]
  · have hop : n - 32 - 1 < 3 := by omega
    have hplace : 33 + (n - 32 - 1) = n := by omega
    simp [CmdWord.op, hop, hplace]

/-- R51: an argument read as a two's-complement integer is in the range of `KEY`. -/
theorem keyInRange_toInt (arg : BitVec 32) : keyInRange arg.toInt = true := by
  simpa [keyInRange] using And.intro (BitVec.le_toInt arg) (BitVec.toInt_lt (x := arg))

/-- R52: an argument read as an unsigned integer is in the range of `LEN`. -/
theorem lenInRange_toNat (arg : BitVec 32) : lenInRange arg.toNat = true := decide_eq_true arg.isLt

/-- R51: a `KEY` in range comes back from its field. -/
theorem toInt_ofInt_of_keyInRange {key : Int} (h : keyInRange key = true) : (BitVec.ofInt 32 key).toInt = key := by
  obtain ⟨hlow, hhigh⟩ : -2 ^ 31 ≤ key ∧ key < 2 ^ 31 := by simpa [keyInRange] using h
  exact BitVec.toInt_ofInt_eq_self (by decide) hlow hhigh

/-! ### The decoder -/

/-- Settles O1: the decoder evaluated on the ten words. -/
theorem writtenOutWordsDecode : Obligations.WrittenOutWordsDecode := by
  unfold Obligations.WrittenOutWordsDecode
  decide

/-- Settles O2: the three fields come back from the word, and the operation code picks the row of R49. -/
theorem decodeReadsTheFields : Obligations.DecodeReadsTheFields := by
  intro p arg
  refine ⟨?_, ?_, ?_, ?_, ?_⟩ <;> simp [decode, fields]

/-- Settles O3: the word's argument field, read as `KEY` or as `LEN`, is the command's operand. -/
theorem decodeOfEncode : Obligations.DecodeOfEncode := by
  intro i hfits
  cases i with
  | ccEnc p key =>
    have hkey : (Instr.ccEnc p key).argField.toInt = key := toInt_ofInt_of_keyInRange hfits
    exact (decodeReadsTheFields p _).1.trans (by rw [hkey])
  | ccDec p key =>
    have hkey : (Instr.ccDec p key).argField.toInt = key := toInt_ofInt_of_keyInRange hfits
    exact (decodeReadsTheFields p _).2.1.trans (by rw [hkey])
  | rcEnc | rcDec | rcAuto => exact Machine.decode_encode_of_rc _ rfl hfits

/-- The command of a word has the word's fields, and they are in range. -/
theorem fields_of_decode {w : CmdWord} {i : Instr} (h : decode w = .ok i) :
    i.wellFormed = true ∧ i.opcode = CmdWord.op w ∧ i.present = CmdWord.present w ∧ i.argField = CmdWord.arg w := by
  unfold decode at h
  split at h <;> rename_i hop <;> cases h
  · exact ⟨keyInRange_toInt _, BitVec.eq_of_toNat_eq hop.symm, rfl, BitVec.ofInt_toInt⟩
  · exact ⟨keyInRange_toInt _, BitVec.eq_of_toNat_eq hop.symm, rfl, BitVec.ofInt_toInt⟩
  · exact ⟨lenInRange_toNat _, BitVec.eq_of_toNat_eq hop.symm, rfl, by simp [Instr.argField]⟩
  · exact ⟨lenInRange_toNat _, BitVec.eq_of_toNat_eq hop.symm, rfl, by simp [Instr.argField]⟩
  · exact ⟨lenInRange_toNat _, BitVec.eq_of_toNat_eq hop.symm, rfl, by simp [Instr.argField]⟩

/-- Settles O4: the command has all three fields of the word, and they are the whole word. -/
theorem encodeOfDecode : Obligations.EncodeOfDecode := by
  intro w i h
  obtain ⟨hfits, hop, hpresent, harg⟩ := fields_of_decode h
  refine ⟨hfits, ?_⟩
  rw [encode, hop, hpresent, harg, encodeFields_of_fields]

/-- R54: the illegal verdict names the operation code, and is given exactly when that code is 5, 6 or 7. -/
theorem decode_eq_error_iff (w : CmdWord) (e : Illegal) :
    decode w = .error e ↔ 5 ≤ (CmdWord.op w).toNat ∧ e = .reservedOp (CmdWord.op w) := by
  unfold decode
  split
  case h_6 h0 h1 h2 h3 h4 =>
    have hge : 5 ≤ (CmdWord.op w).toNat := by grind
    simp [hge, eq_comm]
  all_goals
    rename_i hop
    simp [hop]

end Sys2Proof
end

section
/-! PROOFS. The moves of the agenda (R5, R18, R43, R44, R113, R121, R129): what one step does for each move, on an idle
and on a busy unit. -/

namespace Sys2Proof.Machine

/-! ### One step -/

/-- R129: a step makes the move at the head of the agenda. -/
theorem step_of_agenda_cons {s : State} {e : Event} {rest : List Event} (h : s.agenda = e :: rest) :
    step s = runEvent e { s with agenda := rest } := by
  simp only [step, advance, h]

/-- R6, R128: with no move planned a step ends a command in progress. -/
theorem step_of_agenda_nil {s : State} (h : s.agenda = []) : step s = drain s := by
  simp only [step, advance, h]

/-! ### Issue and completion -/

/-- R54: the issue of an illegal word is refused by its operation code. -/
theorem accept_of_illegal {w : CmdWord} (h : 5 ≤ (CmdWord.op w).toNat) (s : State)
    (body : Instr → Host.Outcome State Fault Refusal) :
    accept w s body = .refused (.reservedOp (CmdWord.op w)) := by
  simp only [accept, (decode_eq_error_iff w _).mpr ⟨h, rfl⟩]

/-- R43, R44: a unit with a command in progress takes no other. -/
theorem accept_of_busy {w : CmdWord} {i c : Instr} (hdecode : decode w = .ok i) {s : State}
    (hbusy : s.command i.unit = some c) (body : Instr → Host.Outcome State Fault Refusal) :
    accept w s body = .refused (.unitBusy i.unit) := by
  simp only [accept, hdecode, hbusy, Option.isSome_some, if_true]

/-- R5, R35: a completion runs the command in progress, on the state in which the unit no longer has it. -/
theorem completeUnit_of_busy {u : CoreUnit} {s : State} {i : Instr} (h : s.command u = some i) :
    completeUnit u s = exec i (s.setCommand u none) := by
  simp only [completeUnit, h]

/-- R6: an idle unit does nothing. -/
theorem completeUnit_of_idle {u : CoreUnit} {s : State} (h : s.command u = none) : completeUnit u s = .next s := by
  simp only [completeUnit, h]

/-- Settles O5: the illegal verdict is on the operation code alone, and both ways of issuing meet it. -/
theorem reservedCodesAreRefused : Obligations.ReservedCodesAreRefused := by
  intro w
  refine ⟨⟨fun ⟨e, he⟩ => ((decode_eq_error_iff w e).mp he).1,
    fun h => ⟨_, (decode_eq_error_iff w _).mpr ⟨h, rfl⟩⟩⟩, ?_⟩
  rintro hop s rest (hcall | hissue)
  · exact (step_of_agenda_cons hcall).trans (accept_of_illegal hop _ _)
  · exact (step_of_agenda_cons hissue).trans (accept_of_illegal hop _ _)

/-- Settles O6: the idle unit accepts the word, and a command that decodes is well formed. -/
theorem stepRunsCalledCommand : Obligations.StepRunsCalledCommand := by
  intro s w rest i hagenda hdecode hidle
  exact ⟨(fields_of_decode hdecode).1, (step_of_agenda_cons hagenda).trans (accept_of_idle w _ _ i hdecode hidle)⟩

/-- A word the host's table numbering reads as a command decodes to it (log 17). -/
theorem decode_of_decodeTableWord {nbits w : Nat} {i : Instr} (h : decodeTableWord nbits w = some i) :
    decode (BitVec.ofNat 36 (w % 2 ^ nbits)) = .ok i := by
  unfold decodeTableWord at h
  split at h
  · cases hd : decode (BitVec.ofNat 36 (w % 2 ^ nbits)) with
    | error e => rw [hd] at h; cases h
    | ok j => rw [hd] at h; cases h; rfl
  · cases h

/-- Settles O7: the placed word is the head of the agenda, and both units are idle. -/
theorem placedWordRunsNext : Obligations.PlacedWordRunsNext := by
  intro s nbits w i h
  have hidle : (s.withFetchWord nbits w).command i.unit = none := by cases i.unit <;> rfl
  exact (stepRunsCalledCommand (s.withFetchWord nbits w) _ s.agenda i rfl (decode_of_decodeTableWord h) hidle).2

/-- Settles O50: the completion runs the unit's command, if it has one. -/
theorem completionMove : Obligations.CompletionMove := by
  intro s u rest hagenda
  have hstep := step_of_agenda_cons hagenda
  cases u
  · exact ⟨fun i hi => hstep.trans (completeUnit_of_busy (u := .cc) hi),
      fun hidle => hstep.trans (completeUnit_of_idle (u := .cc) hidle)⟩
  · exact ⟨fun i hi => hstep.trans (completeUnit_of_busy (u := .rc) hi),
      fun hidle => hstep.trans (completeUnit_of_idle (u := .rc) hidle)⟩

/-- The agenda and a unit's slot are set independently. -/
theorem State.setCommand_withAgenda (s : State) (u : CoreUnit) (c : Option Instr) (a : List Event) :
    { s.setCommand u c with agenda := a } = { s with agenda := a }.setCommand u c := by
  cases u <;> rfl

/-- Emptying the slot of an idle unit changes nothing. -/
theorem State.setCommand_none_of_idle {s : State} {u : CoreUnit} (h : s.command u = none) :
    s.setCommand u none = s := by
  rw [← h, State.setCommand_command]

/-- Settles O8: the issue only fills the unit's slot, and the completion empties it again before it runs the command. -/
theorem issueThenCompleteIsCall : Obligations.IssueThenCompleteIsCall := by
  intro s w rest i hagenda hdecode hidle
  have hissue : step s = .next ({ s with agenda := .complete i.unit :: rest }.setCommand i.unit (some i)) :=
    (step_of_agenda_cons hagenda).trans (accept_of_idle w _ _ i hdecode hidle)
  have hrestIdle : { s with agenda := rest }.command i.unit = none := hidle
  refine ⟨_, hissue, State.command_setCommand_self _ _ _, State.setCommand_record _ _ _, State.setCommand_buf _ _ _,
    State.setCommand_results _ _ _, ?_⟩
  rw [(completionMove _ i.unit rest (State.setCommand_agenda _ _ _)).1 i (State.command_setCommand_self _ _ _),
    State.setCommand_withAgenda, State.setCommand_setCommand, State.setCommand_none_of_idle hrestIdle]

/-- R128: with no move planned a CC command in progress ends. -/
theorem drain_of_ccBusy {s : State} {i : Instr} (h : s.ccCommand = some i) : drain s = completeUnit .cc s := by
  rw [drain, if_pos (by rw [h]; rfl)]

/-- R128: with no move planned and the CC unit idle an RC command in progress ends (log 12). -/
theorem drain_of_ccIdle {s : State} (h : s.ccCommand = none) : drain s = completeUnit .rc s := by
  rw [drain, if_neg (by rw [h]; decide)]

/-- Settles O9: the CC unit's command, then the RC unit's, then none. -/
theorem emptyAgendaDrains : Obligations.EmptyAgendaDrains := by
  intro s hagenda
  have hstep := step_of_agenda_nil hagenda
  exact ⟨fun hcc hrc => (hstep.trans (drain_of_ccIdle hcc)).trans (completeUnit_of_idle (u := .rc) hrc),
    fun i hcc => (hstep.trans (drain_of_ccBusy hcc)).trans (completeUnit_of_busy (u := .cc) hcc),
    fun i hcc hrc => (hstep.trans (drain_of_ccIdle hcc)).trans (completeUnit_of_busy (u := .rc) hrc)⟩

/-! ### The host and its stores -/

/-- R130: a free store is open to the host. -/
theorem hostAccess_of_free {u : CoreUnit} {s : State} (h : s.storeHeld u = false)
    (body : Host.Outcome State Fault Refusal) : hostAccess u s body = body := by
  simp only [hostAccess, h, Bool.false_eq_true, if_false]

/-- R43, R121: a held store is closed to the host. -/
theorem hostAccess_of_held {u : CoreUnit} {s : State} (h : s.storeHeld u = true)
    (body : Host.Outcome State Fault Refusal) : hostAccess u s body = .refused (.storeInUse u) := by
  simp only [hostAccess, h, if_true]

/-- R19, R37: a byte below `LEN` of a free `BUF` is open to the host. -/
theorem hostBufAccess_of_free {i : Nat} {s : State} (h : s.storeHeld .rc = false) (hi : i < s.len)
    (body : Host.Outcome State Fault Refusal) : hostBufAccess i s body = body := by
  rw [hostBufAccess, hostAccess_of_free h, if_pos hi]

/-- R130: a store is held exactly by a command in progress with `P` = 1. -/
theorem State.storeHeld_of_command {s : State} {u : CoreUnit} {c : Instr} (h : s.command u = some c) :
    s.storeHeld u = c.present := by
  simp only [State.storeHeld, h]

/-- A record byte after a write to one register (R15, R16). -/
theorem vector_get_set {α : Type} (r : Vector α 6) (j k : Fin 6) (v : α) :
    (r.set j v)[k] = if k = j then v else r[k] := by
  simp [Vector.getElem_set, Fin.ext_iff, eq_comm]

/-- Settles O10: the store is free, so the access goes through; a write is the store's own update. -/
theorem hostReachesFreeStores : Obligations.HostReachesFreeStores := by
  intro s rest
  refine ⟨fun j v hagenda hfree => ?_, fun i v hagenda hfree hi => ?_, fun j hagenda hfree => ?_,
    fun i hagenda hfree hi => ?_⟩
  · refine ⟨_, (step_of_agenda_cons hagenda).trans (hostAccess_of_free hfree _), ?_, ?_, fun k hk => ⟨?_, ?_⟩, rfl⟩
    · exact (vector_get_set s.record j j v).trans (if_pos rfl)
    · exact (vector_get_set s.recordWritten j j true).trans (if_pos rfl)
    · exact (vector_get_set s.record j k v).trans (if_neg hk)
    · exact (vector_get_set s.recordWritten j k true).trans (if_neg hk)
  · refine ⟨_, (step_of_agenda_cons hagenda).trans (hostBufAccess_of_free hfree hi _), ?_, fun k hk => ?_, rfl⟩
    · exact (memRead_memWrite s.buf i i v).trans (if_pos rfl)
    · exact (memRead_memWrite s.buf i k v).trans (if_neg hk)
  · exact (step_of_agenda_cons hagenda).trans (hostAccess_of_free hfree _)
  · exact (step_of_agenda_cons hagenda).trans (hostBufAccess_of_free hfree hi _)

/-- Settles O11: the cut of `BUF` at the new length. -/
theorem hostChangesLength : Obligations.HostChangesLength := by
  intro s n rest hagenda hfree
  refine ⟨_, (step_of_agenda_cons hagenda).trans (hostAccess_of_free hfree _), rfl, fun i hi => ?_, fun i hi => ?_, rfl⟩
  · exact (memRead_memBelow n s.buf i).trans (if_pos hi)
  · exact (memRead_memBelow n s.buf i).trans (if_neg (Nat.not_lt.mpr hi))

/-- Settles O12: the command in progress holds the store, and its slot is full. -/
theorem busyUnitsAreExclusive : Obligations.BusyUnitsAreExclusive := by
  intro s rest c
  refine ⟨fun hcc hpresent j v => ?_, fun hrc hpresent n i v => ?_, fun w i hdecode hbusy => ?_⟩
  · have hheld : { s with agenda := rest }.storeHeld .cc = true :=
      (State.storeHeld_of_command (u := .cc) hcc).trans hpresent
    rintro (hagenda | hagenda)
    · exact (step_of_agenda_cons hagenda).trans (hostAccess_of_held hheld _)
    · exact (step_of_agenda_cons hagenda).trans (hostAccess_of_held hheld _)
  · have hheld : { s with agenda := rest }.storeHeld .rc = true :=
      (State.storeHeld_of_command (u := .rc) hrc).trans hpresent
    rintro (hagenda | hagenda | hagenda)
    · exact (step_of_agenda_cons hagenda).trans (hostAccess_of_held hheld _)
    · exact (step_of_agenda_cons hagenda).trans (hostAccess_of_held hheld _)
    · exact (step_of_agenda_cons hagenda).trans (hostAccess_of_held hheld _)
  · rintro (hagenda | hagenda)
    · exact (step_of_agenda_cons hagenda).trans (accept_of_busy hdecode hbusy _)
    · exact (step_of_agenda_cons hagenda).trans (accept_of_busy hdecode hbusy _)

/-! ### Reset -/

/-- R29: right after reset no register has been written. -/
theorem State.reset_recordWritten (j : Fin 6) : State.reset.recordWritten[j] = false :=
  Vector.getElem_replicate j.isLt

/-- Settles O13: a reset answers `afterReset` when both units are idle, and is refused when one is not. -/
theorem resetMove : Obligations.ResetMove := by
  intro s rest hagenda
  have hstep : step s = hostReset { s with agenda := rest } := step_of_agenda_cons hagenda
  refine ⟨fun hcc hrc => ⟨{ s with agenda := rest }.afterReset, ?_, rfl, rfl, rfl, rfl, State.reset_recordWritten,
    fun _ => rfl, rfl, rfl⟩, fun hbusy => ?_⟩
  · simp [hstep, hostReset, hcc, hrc]
  · rw [hstep, hostReset, if_pos (by simpa only [Bool.or_eq_true] using hbusy)]

/-- Settles O14: the fields of the reset state (R29). -/
theorem resetLeaves : Obligations.ResetLeaves := by
  refine ⟨fun t => ⟨?_, ?_⟩, rfl, rfl, rfl, State.reset_recordWritten, fun _ => rfl⟩
  · exact Vector.getElem_ofFn t.isLt
  · exact Vector.getElem_ofFn t.isLt

/-- Settles O15: `BUF` lists nothing and both slots are empty. -/
theorem invariantAtReset : Obligations.InvariantAtReset :=
  ⟨List.Pairwise.nil, fun _ hc => absurd hc List.not_mem_nil, trivial, trivial⟩

end Sys2Proof.Machine
end

section
/-! PROOFS. The CC unit as a function of the record (R69 to R73): a command that reads only written registers ends, with
the result of the outcome table, and leaves a record that depends on the command and the record alone. -/

namespace Sys2Proof.Machine

/-! ### What a CC command leaves, and when it ends -/

/-- R71, R72, R73: the record left by a key that is given as an integer: the transform `g` under a concrete key, the
failure's write under any other. -/
def ccKeyedLeaves (cfg : Config) (g : Key → Vector Byte 6 → Vector Byte 6) (key : Int) (r : Vector Byte 6) :
    Vector Byte 6 :=
  match keyOfInt key with
  | some k => g k r
  | none => failWrite cfg.ccFailWritesB0 key r

/-- R70, R72: the record left by `CC.DEC` with auto. -/
def ccAutoLeaves (cfg : Config) (r : Vector Byte 6) : Vector Byte 6 :=
  match keyOfInt ((autoNibble r[0]).toNat : Int) with
  | some k => decryptRecord cfg.formulas k r
  | none => maskByte0 (autoNibble r[0]) r

/-- R69 to R73: the record a CC command leaves. -/
def ccLeaves (cfg : Config) (i : Instr) (r : Vector Byte 6) : Vector Byte 6 :=
  match i with
  | .ccEnc true key => ccKeyedLeaves cfg (encryptRecord cfg.formulas) key r
  | .ccDec true key =>
    if key = keyAuto then ccAutoLeaves cfg r else ccKeyedLeaves cfg (decryptRecord cfg.formulas) key r
  | _ => r

/-- R29, R117: every register the CC command reads has been written: byte 0 of a present record, and all six bytes when
the command transforms it. -/
def CcReadable (i : Instr) (s : State) : Prop :=
  i.present = true → s.recordWritten[(0 : Fin 6)] = true ∧ (verdict s.record[(0 : Fin 6)] i = .ok → s.recordReady)

theorem ccKeyedLeaves_of_key (cfg : Config) (g : Key → Vector Byte 6 → Vector Byte 6) (k : Key) (r : Vector Byte 6) :
    ccKeyedLeaves cfg g k.toInt r = g k r := by
  simp only [ccKeyedLeaves, keyOfInt_toInt]

theorem ccKeyedLeaves_of_failure (cfg : Config) (g : Key → Vector Byte 6 → Vector Byte 6) {key : Int}
    (h : keyOfInt key = none) (r : Vector Byte 6) :
    ccKeyedLeaves cfg g key r = failWrite cfg.ccFailWritesB0 key r := by
  simp only [ccKeyedLeaves, h]

/-- R70: the auto key is the concrete key whose value the low nibble of byte 0 has. -/
theorem keyOfInt_autoNibble_eq_some (b : Byte) (k : Key) :
    keyOfInt ((autoNibble b).toNat : Int) = some k ↔ autoNibble b = k.toByte :=
  (keyOfInt_eq_some _ k).trans (autoNibble_eq_key b k)

theorem keyOfInt_autoNibble_eq_none (b : Byte) :
    keyOfInt ((autoNibble b).toNat : Int) = none ↔ ∀ k : Key, autoNibble b ≠ k.toByte := by
  simp only [Option.eq_none_iff_forall_ne_some, ne_eq, keyOfInt_autoNibble_eq_some]

theorem ccAutoLeaves_of_key (cfg : Config) {k : Key} {r : Vector Byte 6} (h : autoNibble r[0] = k.toByte) :
    ccAutoLeaves cfg r = decryptRecord cfg.formulas k r := by
  simp only [ccAutoLeaves, (keyOfInt_autoNibble_eq_some _ k).mpr h]

theorem ccAutoLeaves_of_failure (cfg : Config) {r : Vector Byte 6} (h : ∀ k : Key, autoNibble r[0] ≠ k.toByte) :
    ccAutoLeaves cfg r = maskByte0 (autoNibble r[0]) r := by
  simp only [ccAutoLeaves, (keyOfInt_autoNibble_eq_none _).mpr h]

/-! ### The rows of the outcome table for the CC unit (R98) -/

theorem keyVerdict_of_key (k : Key) : keyVerdict k.toInt = .ok := by
  simp only [keyVerdict, keyOfInt_toInt]

theorem keyVerdict_of_failure {key : Int} (h : keyOfInt key = none) : keyVerdict key = .unsupportedKey := by
  simp only [keyVerdict, h]

/-- R70: a resolved key passes exactly when it is a concrete one. -/
theorem keyVerdict_eq_ok (key : Int) : keyVerdict key = .ok ↔ ∃ k : Key, key = k.toInt := by
  constructor
  · intro h
    cases hk : keyOfInt key with
    | none => rw [keyVerdict_of_failure hk] at h; cases h
    | some k => exact ⟨k, (keyOfInt_eq_some key k).mp hk⟩
  · rintro ⟨k, rfl⟩
    exact keyVerdict_of_key k

theorem verdict_ccEnc_auto (b : Byte) : verdict b (.ccEnc true keyAuto) = .invalidInput := rfl

theorem verdict_ccEnc_explicit (b : Byte) {key : Int} (h : key ≠ keyAuto) :
    verdict b (.ccEnc true key) = keyVerdict key := by
  simp only [verdict, h, Bool.true_eq_false, if_false]

theorem verdict_ccDec_auto (b : Byte) :
    verdict b (.ccDec true keyAuto) = keyVerdict ((autoNibble b).toNat : Int) := rfl

theorem verdict_ccDec_explicit (b : Byte) {key : Int} (h : key ≠ keyAuto) :
    verdict b (.ccDec true key) = keyVerdict key := by
  simp only [verdict, h, Bool.true_eq_false, if_false]

/-! ### The operations -/

/-- R69, R71, R73: `CC.ENC` that reads only written registers ends. -/
theorem ccEncrypt_of_readable (cfg : Config) (p : Bool) (key : Int) (s : State) (h : CcReadable (.ccEnc p key) s) :
    ccEncrypt cfg p key s = .next ((s.writeRecord (ccLeaves cfg (.ccEnc p key) s.record)).present .cc
      (verdict s.record[(0 : Fin 6)] (.ccEnc p key))) := by
  cases p
  · rfl
  obtain ⟨hzero, hready⟩ := h rfl
  by_cases hauto : key = keyAuto
  · subst hauto
    exact ccChecked_of_written s _ hzero
  rw [verdict_ccEnc_explicit _ hauto] at hready ⊢
  cases hkey : keyOfInt key with
  | none =>
    rw [ccEncrypt, ccChecked_of_written s _ hzero, if_neg hauto, keyVerdict_of_failure hkey, hkey, ccLeaves,
      ccKeyedLeaves_of_failure cfg _ hkey, ccKeyFailure]
  | some k =>
    obtain rfl := (keyOfInt_eq_some key k).mp hkey
    rw [keyVerdict_of_key] at hready ⊢
    rw [ccEncrypt_of_ready cfg k s (hready rfl), ccLeaves, ccKeyedLeaves_of_key]

/-- R69, R72, R73: `CC.DEC` that reads only written registers ends. -/
theorem ccDecrypt_of_readable (cfg : Config) (p : Bool) (key : Int) (s : State) (h : CcReadable (.ccDec p key) s) :
    ccDecrypt cfg p key s = .next ((s.writeRecord (ccLeaves cfg (.ccDec p key) s.record)).present .cc
      (verdict s.record[(0 : Fin 6)] (.ccDec p key))) := by
  cases p
  · rfl
  obtain ⟨hzero, hready⟩ := h rfl
  by_cases hauto : key = keyAuto
  · subst hauto
    rw [verdict_ccDec_auto] at hready ⊢
    rw [ccDecrypt, ccChecked_of_written s _ hzero, if_pos rfl, ccLeaves, if_pos rfl]
    cases hkey : keyOfInt ((autoNibble s.record[(0 : Fin 6)]).toNat : Int) with
    | none =>
      rw [keyVerdict_of_failure hkey, ccAutoLeaves_of_failure cfg ((keyOfInt_autoNibble_eq_none _).mp hkey)]
      rfl
    | some k =>
      have hnibble := (keyOfInt_autoNibble_eq_some _ k).mp hkey
      rw [(keyOfInt_eq_some _ k).mp hkey, keyVerdict_of_key] at hready ⊢
      simp only [hnibble]
      rw [ccAutoLeaves_of_key cfg hnibble]
      exact ccTransform_of_ready (decryptRecord cfg.formulas k) s (hready rfl)
  rw [verdict_ccDec_explicit _ hauto] at hready ⊢
  cases hkey : keyOfInt key with
  | none =>
    rw [ccDecrypt, ccChecked_of_written s _ hzero, if_neg hauto, keyVerdict_of_failure hkey, hkey, ccLeaves,
      if_neg hauto, ccKeyedLeaves_of_failure cfg _ hkey, ccKeyFailure]
  | some k =>
    obtain rfl := (keyOfInt_eq_some key k).mp hkey
    rw [keyVerdict_of_key] at hready ⊢
    rw [ccDecrypt_of_ready cfg k s (hready rfl), ccLeaves, if_neg hauto, ccKeyedLeaves_of_key]

/-- R29, R117: `CC.ENC` that ends has read only written registers. -/
theorem ccReadable_of_ccEncrypt {cfg : Config} {p : Bool} {key : Int} {s t : State}
    (h : ccEncrypt cfg p key s = .next t) : CcReadable (.ccEnc p key) s := by
  intro hp
  obtain rfl : p = true := hp
  obtain ⟨hfalse, -⟩ | ⟨-, hzero, ⟨rfl, -⟩ | ⟨hauto, hkey, -⟩ | ⟨k, -, hready, -⟩⟩ :=
    ccEncrypt_eq_next cfg true key s t h
  · cases hfalse
  · exact ⟨hzero, fun hok => by cases hok⟩
  · exact ⟨hzero, fun hok => by rw [verdict_ccEnc_explicit _ hauto, keyVerdict_of_failure hkey] at hok; cases hok⟩
  · exact ⟨hzero, fun _ => hready⟩

/-- R29, R117: `CC.DEC` that ends has read only written registers. -/
theorem ccReadable_of_ccDecrypt {cfg : Config} {p : Bool} {key : Int} {s t : State}
    (h : ccDecrypt cfg p key s = .next t) : CcReadable (.ccDec p key) s := by
  intro hp
  obtain rfl : p = true := hp
  obtain ⟨hfalse, -⟩ | ⟨-, hzero, ⟨rfl, hkey, -⟩ | ⟨rfl, k, -, hready, -⟩ | ⟨hauto, hkey, -⟩ | ⟨k, -, hready, -⟩⟩ :=
    ccDecrypt_eq_next cfg true key s t h
  · cases hfalse
  · exact ⟨hzero, fun hok => by rw [verdict_ccDec_auto, keyVerdict_of_failure hkey] at hok; cases hok⟩
  · exact ⟨hzero, fun _ => hready⟩
  · exact ⟨hzero, fun hok => by rw [verdict_ccDec_explicit _ hauto, keyVerdict_of_failure hkey] at hok; cases hok⟩
  · exact ⟨hzero, fun _ => hready⟩

/-- R69 to R73, R98: a CC command ends exactly when it reads only written registers, and then in this state. -/
theorem exec_cc_eq_next_iff {i : Instr} (hunit : i.unit = .cc) (s t : State) :
    exec i s = .next t ↔ CcReadable i s ∧
      t = (s.writeRecord (ccLeaves Config.hardware i s.record)).present .cc (verdict s.record[(0 : Fin 6)] i) := by
  have hends : CcReadable i s → exec i s = .next ((s.writeRecord (ccLeaves Config.hardware i s.record)).present .cc
      (verdict s.record[(0 : Fin 6)] i)) := by
    cases i with
    | ccEnc p key => exact ccEncrypt_of_readable Config.hardware p key s
    | ccDec p key => exact ccDecrypt_of_readable Config.hardware p key s
    | rcEnc | rcDec | rcAuto => cases hunit
  have hreads : exec i s = .next t → CcReadable i s := by
    cases i with
    | ccEnc p key => exact ccReadable_of_ccEncrypt
    | ccDec p key => exact ccReadable_of_ccDecrypt
    | rcEnc | rcDec | rcAuto => cases hunit
  constructor
  · intro h
    exact ⟨hreads h, Host.Outcome.next.inj (h.symm.trans (hends (hreads h)))⟩
  · rintro ⟨hr, rfl⟩
    exact hends hr

end Sys2Proof.Machine
end

section
/-! PROOFS. The RC unit (R82 to R87): a command that passes its input check and reads only written bytes maps one
transform over `BUF`, and `RC.AUTO` is one of the other two commands. -/

namespace Sys2Proof.Machine

/-! ### The three commands as one pass -/

/-- R49, R50, R52: an RC command with these fields. -/
abbrev IsRc (p : Bool) (n : Nat) (i : Instr) : Prop := i = .rcEnc p n ∨ i = .rcDec p n ∨ i = .rcAuto p n

theorem exists_isRc_of_unit {i : Instr} (h : i.unit = .rc) : ∃ p n, IsRc p n i := by
  cases i with
  | ccEnc | ccDec => cases h
  | rcEnc p n => exact ⟨p, n, .inl rfl⟩
  | rcDec p n => exact ⟨p, n, .inr (.inl rfl)⟩
  | rcAuto p n => exact ⟨p, n, .inr (.inr rfl)⟩

theorem IsRc.unit_eq {p : Bool} {n : Nat} {i : Instr} (h : IsRc p n i) : i.unit = .rc := by
  obtain rfl | rfl | rfl := h <;> rfl

/-- R82, R98: the failed input check. -/
theorem IsRc.verdict_of_invalid {p : Bool} {n : Nat} {i : Instr} (h : IsRc p n i) (hinvalid : p = false ∨ n < 512)
    (b : Byte) : verdict b i = .invalidInput := by
  cases p
  · obtain rfl | rfl | rfl := h <;> rfl
  · have hshort : n < blockSize := hinvalid.resolve_left (by decide)
    obtain rfl | rfl | rfl := h <;> simp only [verdict, hshort, if_true, ite_self]

/-- R82, R98: the passed input check. -/
theorem IsRc.verdict_of_valid {n : Nat} {i : Instr} (h : IsRc true n i) (hblock : 512 ≤ n) (b : Byte) :
    verdict b i = .ok := by
  have hlong : ¬ n < blockSize := Nat.not_lt.mpr hblock
  obtain rfl | rfl | rfl := h <;> simp only [verdict, hlong, Bool.true_eq_false, if_false]

/-- R83, R84, R86: the transform an RC command maps over `BUF`; `RC.AUTO` picks it by the signature. -/
def State.romTransform (s : State) (i : Instr) : Nat → Byte → Byte :=
  match i with
  | .rcEnc _ _ => s.romEncAt
  | .rcAuto _ _ => if s.readBufWord sigOffset = .ok sigWord then s.romEncAt else s.romDecAt
  | _ => s.romDecAt

/-- R83, R84, R98: the state in which a pass of the transform `f` ends. -/
def State.afterPass (s : State) (n : Nat) (f : Nat → Byte → Byte) : State :=
  State.present { s with buf := memMap n f s.buf } .rc .ok

/-- R84, R118: a pass ends exactly when it meets no unwritten byte. -/
theorem rcPass_eq_next_iff (n : Nat) (f : Nat → Byte → Byte) (s t : State) :
    rcPass n f s = .next t ↔ firstUnlisted n 0 s.buf = none ∧ t = s.afterPass n f := by
  unfold rcPass State.transformBuf
  cases firstUnlisted n 0 s.buf with
  | none => exact ⟨fun h => ⟨rfl, (Host.Outcome.next.inj h).symm⟩, fun ⟨_, h⟩ => h ▸ rfl⟩
  | some i => simp

/-- R82, R120: a pass behind the input check ends when the check fails, or when it passes with the buffer's length and
the pass ends. -/
theorem rcChecked_rcPass_eq_next_iff (p : Bool) (n : Nat) (f : Nat → Byte → Byte) (s t : State) :
    rcChecked p n s (rcPass n f s) = .next t ↔
      ((p = false ∨ n < 512) ∧ t = s.present .rc .invalidInput) ∨
        (p = true ∧ 512 ≤ n ∧ n = s.len ∧ firstUnlisted n 0 s.buf = none ∧ t = s.afterPass n f) := by
  constructor
  · intro h
    refine (rcChecked_eq_next p n s t _ h).imp_right ?_
    rintro ⟨hp, hblock, hlen, hpass⟩
    exact ⟨hp, hblock, hlen, (rcPass_eq_next_iff n f s t).mp hpass⟩
  · rintro (⟨hinvalid, rfl⟩ | ⟨rfl, hblock, hlen, hpass⟩)
    · exact rcChecked_of_invalid p n s _ hinvalid
    · exact (rcChecked_of_valid n s _ hblock hlen).trans ((rcPass_eq_next_iff n f s t).mpr hpass)

/-- R86: `RC.AUTO` on a buffer whose signature word can be read is one of the other two commands. -/
theorem exec_rcAuto_of_word {s : State} {w : BitVec 32} (hword : s.readBufWord sigOffset = .ok w) (p : Bool) (n : Nat) :
    exec (.rcAuto p n) s = if w = sigWord then exec (.rcEnc p n) s else exec (.rcDec p n) s := by
  simp only [exec_rcAuto, exec_rcEnc, exec_rcDec, hword]
  split <;> rfl

/-- A search from `i` that finds no unwritten offset below `n` has passed a value at each; no canonical form is
needed. -/
theorem isSome_of_firstUnlisted {n i : Nat} {m : List Host.Cell} (h : firstUnlisted n i m = none) {k : Nat}
    (hik : i ≤ k) (hkn : k < n) : (memRead m k).isSome = true := by
  induction m generalizing i with
  | nil =>
    rw [firstUnlisted, if_pos (by omega)] at h
    cases h
  | cons c m ih =>
    rw [firstUnlisted, if_neg (by omega)] at h
    rw [memRead_cons]
    split at h
    · split
      · rfl
      · exact ih h (by omega)
    · cases h

/-- R118: a search over the whole buffer that finds no unwritten offset has passed `n` written bytes. -/
theorem State.bufReady_of_firstUnlisted {s : State} {n : Nat} (h : firstUnlisted n 0 s.buf = none) : s.bufReady n :=
  fun _ hi => isSome_of_firstUnlisted h (Nat.zero_le _) hi

/-- R82 to R87, R98, R120: an RC command ends exactly when its input check fails, or when the check passes, `LEN` is the
buffer's size and every byte is written; and then in these states. -/
theorem exec_rc_eq_next_iff {p : Bool} {n : Nat} {i : Instr} (hi : IsRc p n i) (s t : State) :
    exec i s = .next t ↔
      ((p = false ∨ n < 512) ∧ t = s.present .rc .invalidInput) ∨
        (p = true ∧ 512 ≤ n ∧ n = s.len ∧ firstUnlisted n 0 s.buf = none ∧ t = s.afterPass n (s.romTransform i)) := by
  obtain rfl | rfl | rfl := hi
  · exact rcChecked_rcPass_eq_next_iff p n s.romEncAt s t
  · exact rcChecked_rcPass_eq_next_iff p n s.romDecAt s t
  cases hword : s.readBufWord sigOffset with
  | ok w =>
    rw [exec_rcAuto_of_word hword]
    by_cases hsig : w = sigWord
    · rw [if_pos hsig, State.romTransform, if_pos (hword.trans (congrArg _ hsig))]
      exact rcChecked_rcPass_eq_next_iff p n s.romEncAt s t
    · rw [if_neg hsig, State.romTransform, if_neg (fun h => hsig (Except.ok.inj (hword.symm.trans h)))]
      exact rcChecked_rcPass_eq_next_iff p n s.romDecAt s t
  | error e =>
    constructor
    · intro h
      refine (rcChecked_eq_next p n s t _ h).imp_right ?_
      rintro ⟨-, -, -, hbody⟩
      obtain ⟨w, hw, -⟩ := rcAutoBody_eq_next n s t hbody
      rw [hword] at hw
      cases hw
    · rintro (⟨hinvalid, rfl⟩ | ⟨-, hblock, hlen, hlisted, -⟩)
      · exact rcChecked_of_invalid p n s _ hinvalid
      · obtain ⟨_, _, _, _, -, -, -, -, hw⟩ :=
          s.readSignature_of_ready n hblock hlen (State.bufReady_of_firstUnlisted hlisted)
        rw [hword] at hw
        cases hw

/-! ### A buffer the host has got ready -/

/-- R118, R120: the host has written a buffer of `n` bytes, in canonical form, that passes the input check. -/
structure State.RcReady (s : State) (n : Nat) : Prop where
  block : 512 ≤ n
  sorted : Memory.wf s.buf
  size : n = s.len
  written : s.bufReady n

/-- On such a buffer a command with `P` = 1 maps its transform. -/
theorem State.RcReady.exec_eq {s : State} {n : Nat} (h : s.RcReady n) {i : Instr} (hi : IsRc true n i) :
    exec i s = .next (s.afterPass n (s.romTransform i)) :=
  (exec_rc_eq_next_iff hi s _).mpr
    (.inr ⟨rfl, h.block, h.size, (firstUnlisted_eq_none n s.buf h.sorted).mpr h.written, rfl⟩)

/-- A pass leaves such a buffer. -/
theorem State.RcReady.afterPass {s : State} {n : Nat} (h : s.RcReady n) (f : Nat → Byte → Byte) :
    (s.afterPass n f).RcReady n where
  block := h.block
  sorted := memMap_wf n f s.buf h.sorted
  size := h.size
  written i hi := by
    have hread : memRead (s.afterPass n f).buf i = (memRead s.buf i).map (f i) :=
      (memRead_memMap n f s.buf i).trans (if_pos hi)
    rw [hread, Option.isSome_map]
    exact h.written i hi

end Sys2Proof.Machine
end

section
/-! PROOFS. What every command does (R22, R27, R28, R44, R98, R128): its result, its frame, what it depends on, and that
it ends; then the invariant and the results through a step. -/

namespace Sys2Proof.Machine

/-! ### The result and the frame -/

/-- Settles O19: each unit presents the verdict of the table. -/
theorem resultFollowsOutcomeTable : Obligations.ResultFollowsOutcomeTable := by
  intro i s t h
  cases hunit : i.unit with
  | cc =>
    obtain ⟨-, rfl⟩ := (exec_cc_eq_next_iff hunit s t).mp h
    rfl
  | rc =>
    obtain ⟨p, n, hi⟩ := exists_isRc_of_unit hunit
    obtain ⟨hinvalid, rfl⟩ | ⟨rfl, hblock, -, -, rfl⟩ := (exec_rc_eq_next_iff hi s t).mp h
    · rw [hi.verdict_of_invalid hinvalid, State.present_results]
    · rw [hi.verdict_of_valid hblock, State.afterPass, State.present_results]

/-- R73: a write at a failure touches byte 0 only. -/
theorem failWrite_other (w : Bool) (key : Int) (r : Vector Byte 6) {j : Fin 6} (hj : j ≠ 0) :
    (failWrite w key r)[j] = r[j] := by
  cases w
  · rfl
  · exact maskByte0_other _ r j j.isLt (Fin.val_ne_of_ne hj)

/-- R73, R104: a CC command that ends with an error leaves bytes 1 to 5. -/
theorem ccLeaves_other_of_error (cfg : Config) {i : Instr} {r : Vector Byte 6} (herror : verdict r[(0 : Fin 6)] i ≠ .ok)
    {j : Fin 6} (hj : j ≠ 0) : (ccLeaves cfg i r)[j] = r[j] := by
  have hkeyed : ∀ (g : Key → Vector Byte 6 → Vector Byte 6) (key : Int), keyVerdict key ≠ .ok →
      (ccKeyedLeaves cfg g key r)[j] = r[j] := fun g key hkey => by
    cases hnone : keyOfInt key with
    | none => rw [ccKeyedLeaves_of_failure cfg g hnone, failWrite_other _ _ _ hj]
    | some k => exact absurd ((keyVerdict_eq_ok key).mpr ⟨k, (keyOfInt_eq_some key k).mp hnone⟩) hkey
  cases i with
  | ccEnc p key =>
    cases p
    · rfl
    by_cases hauto : key = keyAuto
    · exact hkeyed _ key (by rw [hauto]; decide)
    · exact hkeyed _ key (verdict_ccEnc_explicit _ hauto ▸ herror)
  | ccDec p key =>
    cases p
    · rfl
    by_cases hauto : key = keyAuto
    · subst hauto
      have hbad : ∀ k : Key, autoNibble r[0] ≠ k.toByte := fun k hk => herror
        ((keyVerdict_eq_ok _).mpr ⟨k, (autoNibble_eq_key _ k).mpr hk⟩)
      rw [ccLeaves, if_pos rfl, ccAutoLeaves_of_failure cfg hbad]
      exact maskByte0_other _ r j j.isLt (Fin.val_ne_of_ne hj)
    · rw [ccLeaves, if_neg hauto]
      exact hkeyed _ key (verdict_ccDec_explicit _ hauto ▸ herror)
  | rcEnc | rcDec | rcAuto => rfl

/-- R69: with `P` = 0 a CC command leaves the record. -/
theorem ccLeaves_of_absent (cfg : Config) {i : Instr} (h : i.present = false) (r : Vector Byte 6) :
    ccLeaves cfg i r = r := by
  cases i with
  | ccEnc p key | ccDec p key => obtain rfl : p = false := h; rfl
  | rcEnc | rcDec | rcAuto => rfl

/-- Settles O20: the record that `ccLeaves` gives is the only thing written beside the results. -/
theorem codeCipherFrame : Obligations.CodeCipherFrame := by
  intro p key s t i hi h
  have hunit : i.unit = .cc := by obtain rfl | rfl := hi <;> rfl
  have hpresent : i.present = p := by obtain rfl | rfl := hi <;> rfl
  obtain ⟨-, rfl⟩ := (exec_cc_eq_next_iff hunit s t).mp h
  exact ⟨rfl, fun hp => ccLeaves_of_absent _ (hpresent.trans hp) s.record,
    fun herror j hj => ccLeaves_other_of_error _ herror hj⟩

/-- Settles O21: a pass maps the offsets below `LEN`; a failed input check writes nothing. -/
theorem romCipherFrame : Obligations.RomCipherFrame := by
  intro p n s t i hi h
  refine ⟨exec_rc_frame i s t (IsRc.unit_eq hi) h, ?_⟩
  obtain ⟨-, rfl⟩ | ⟨rfl, hblock, -, -, rfl⟩ := (exec_rc_eq_next_iff hi s t).mp h
  · exact ⟨fun _ _ => rfl, fun _ => rfl⟩
  · refine ⟨fun a ha => ?_, fun hinvalid => ?_⟩
    · exact (memRead_memMap n _ s.buf a).trans (if_neg (Nat.not_lt.mpr ha))
    · exact absurd (hinvalid.resolve_left (by decide)) (Nat.not_lt.mpr hblock)

/-- R2, R16, R19: a command changes the stores and the results only. -/
theorem exec_frame {i : Instr} {s t : State} (h : exec i s = .next t) :
    t = { s with record := t.record, buf := t.buf, results := t.results } := by
  cases hunit : i.unit with
  | cc => rw [exec_cc_frame i s t hunit h]
  | rc => rw [exec_rc_frame i s t hunit h]

/-- R26: the units' slots are not a command's to change. -/
theorem exec_command {i : Instr} {s t : State} (h : exec i s = .next t) (u : CoreUnit) : t.command u = s.command u := by
  rw [exec_frame h]
  cases u <;> rfl

/-! ### What a command depends on -/

theorem SameStore.symm {u : CoreUnit} {s t : State} (h : SameStore u s t) : SameStore u t s := by
  cases u with
  | cc => exact ⟨h.1.symm, h.2.symm⟩
  | rc => obtain ⟨hbuf, hlen, h1, h2⟩ := h; exact ⟨hbuf.symm, hlen.symm, h1.symm, h2.symm⟩

theorem SameStore.trans {u : CoreUnit} {s t v : State} (h : SameStore u s t) (h' : SameStore u t v) :
    SameStore u s v := by
  cases u with
  | cc => exact ⟨h.1.trans h'.1, h.2.trans h'.2⟩
  | rc =>
    obtain ⟨hbuf, hlen, h1, h2⟩ := h
    obtain ⟨hbuf', hlen', h1', h2'⟩ := h'
    exact ⟨hbuf.trans hbuf', hlen.trans hlen', h1.trans h1', h2.trans h2'⟩

/-- R29, R117: whether the registers a CC command reads are written depends on the record alone. -/
theorem CcReadable.of_sameStore {i : Instr} {s s' : State} (h : SameStore .cc s s') (hr : CcReadable i s) :
    CcReadable i s' := by
  obtain ⟨hrecord, hwritten⟩ := h
  simpa only [CcReadable, State.recordReady, hrecord, hwritten] using hr

/-- R31, R83 to R86: the transform of an RC command depends on `BUF`, `LEN` and the tables alone. -/
theorem State.romTransform_of_sameStore {s s' : State} (h : SameStore .rc s s') (i : Instr) :
    s.romTransform i = s'.romTransform i := by
  obtain ⟨hbuf, hlen, h1, h2⟩ := h
  have henc : s.romEncAt = s'.romEncAt := by
    funext a b
    rw [State.romEncAt, State.romEncAt, State.seed1_congr h1 rfl, State.seed2_congr h2 rfl]
  have hdec : s.romDecAt = s'.romDecAt := by
    funext a b
    rw [State.romDecAt, State.romDecAt, State.seed1_congr h1 rfl, State.seed2_congr h2 rfl]
  have hread : ∀ a, s.readBuf a = s'.readBuf a := fun a => by rw [State.readBuf, State.readBuf, hbuf, hlen]
  have hword : s.readBufWord sigOffset = s'.readBufWord sigOffset := by
    simp only [State.readBufWord, hread]
  simp only [State.romTransform, henc, hdec, hword]

/-- Settles O22: the conditions under which a command ends, the store it leaves and its result are functions of the
store it reads. -/
theorem commandsDependOnTheirStoreOnly : Obligations.CommandsDependOnTheirStoreOnly := by
  intro i s s' t hsame h
  cases hunit : i.unit with
  | cc =>
    rw [hunit] at hsame
    obtain ⟨hreads, rfl⟩ := (exec_cc_eq_next_iff hunit s t).mp h
    refine ⟨_, (exec_cc_eq_next_iff hunit s' _).mpr ⟨hreads.of_sameStore hsame, rfl⟩, ?_, _, rfl, ?_⟩
    · exact ⟨congrArg (ccLeaves Config.hardware i) hsame.1, hsame.2⟩
    · rw [State.present_results, hsame.1]; rfl
  | rc =>
    rw [hunit] at hsame
    have htransform := State.romTransform_of_sameStore hsame i
    obtain ⟨p, n, hi⟩ := exists_isRc_of_unit hunit
    obtain ⟨hbuf, hlen, htables⟩ := hsame
    obtain ⟨hinvalid, rfl⟩ | ⟨hp, hblock, hsize, hlisted, rfl⟩ := (exec_rc_eq_next_iff hi s t).mp h
    · exact ⟨_, (exec_rc_eq_next_iff hi s' _).mpr (.inl ⟨hinvalid, rfl⟩), ⟨hbuf, hlen, htables⟩, _, rfl, rfl⟩
    · refine ⟨_, (exec_rc_eq_next_iff hi s' _).mpr (.inr ⟨hp, hblock, hsize.trans hlen, hbuf ▸ hlisted, rfl⟩),
        ⟨?_, hlen, htables⟩, _, rfl, rfl⟩
      rw [← htransform]
      exact congrArg (memMap n (s.romTransform i)) hbuf

/-- R44: a command leaves the other unit's store. -/
theorem sameStore_of_exec {i : Instr} {s t : State} (h : exec i s = .next t) {u : CoreUnit} (hu : u ≠ i.unit) :
    SameStore u s t := by
  cases hunit : i.unit with
  | cc =>
    rw [exec_cc_frame i s t hunit h]
    cases u with
    | cc => exact absurd hunit.symm hu
    | rc => exact ⟨rfl, rfl, rfl, rfl⟩
  | rc =>
    rw [exec_rc_frame i s t hunit h]
    cases u with
    | cc => exact ⟨rfl, rfl⟩
    | rc => exact absurd hunit.symm hu

/-- R2: of the two units, the one that is not `u` is `v`. -/
theorem unit_eq_of_ne {u v w : CoreUnit} (huv : u ≠ v) (hwu : w ≠ u) : w = v := by
  cases u <;> cases v <;> cases w <;> simp_all

/-- R27, R44: of two presentations by different units each unit sees its own, in whichever order they come. -/
theorem filter_unit_swap (rs : List Report) {a b : Report} (h : a.unit ≠ b.unit) (v : CoreUnit) :
    (rs ++ [b] ++ [a]).filter (fun r => r.unit = v) = (rs ++ [a] ++ [b]).filter (fun r => r.unit = v) := by
  by_cases ha : a.unit = v
  · have hb : b.unit ≠ v := fun hb => h (ha.trans hb.symm)
    simp [List.filter_append, ha, hb]
  · simp [List.filter_append, List.filter_cons, ha]

/-- R44: commands of different units commute. Each finds its own store as it would have been alone. -/
theorem exec_comm {i j : Instr} (hunits : i.unit ≠ j.unit) {s t u : State} (hi : exec i s = .next t)
    (hj : exec j t = .next u) :
    ∃ t' u', exec j s = .next t' ∧ exec i t' = .next u' ∧ u' = { u with results := u'.results } ∧
      ∀ v : CoreUnit, u'.results.filter (fun r => r.unit = v) = u.results.filter (fun r => r.unit = v) := by
  obtain ⟨t', hj', hjstore, rj, hu, ht'⟩ :=
    commandsDependOnTheirStoreOnly j t s u (sameStore_of_exec hi hunits.symm).symm hj
  obtain ⟨u', hi', histore, ri, ht, hu'⟩ :=
    commandsDependOnTheirStoreOnly i s t' t (sameStore_of_exec hj' hunits) hi
  have hstore : ∀ v : CoreUnit, SameStore v u u' := fun v => by
    by_cases hv : v = i.unit
    · subst hv
      exact (sameStore_of_exec hj hunits).symm.trans histore
    · obtain rfl : v = j.unit := unit_eq_of_ne hunits hv
      exact hjstore.trans (sameStore_of_exec hi' hv)
  have hri : ri.unit = i.unit := by
    have hreport := List.append_cancel_left (ht.symm.trans (resultFollowsOutcomeTable i s t hi))
    rw [(List.cons.inj hreport).1]
  have hrj : rj.unit = j.unit := by
    have hreport := List.append_cancel_left (hu.symm.trans (resultFollowsOutcomeTable j t u hj))
    rw [(List.cons.inj hreport).1]
  refine ⟨t', u', hj', hi', ?_, fun v => ?_⟩
  · rw [exec_frame hi', exec_frame hj', exec_frame hj, exec_frame hi]
    obtain ⟨hrecord, -⟩ := hstore .cc
    obtain ⟨hbuf, -⟩ := hstore .rc
    simp only [hrecord, hbuf]
  · rw [hu', ht', hu, ht]
    exact filter_unit_swap s.results (by rwa [hri, hrj]) v

/-- Settles O23: the two orders are one statement about commands of different units. -/
theorem unitsAreIndependent : Obligations.UnitsAreIndependent := by
  rintro c r i j s t u hc hr (⟨rfl, rfl⟩ | ⟨rfl, rfl⟩) hi hj
  · exact exec_comm (by rw [hc, hr]; decide) hi hj
  · exact exec_comm (by rw [hc, hr]; decide) hi hj

/-- Settles O24: the duties give what each unit's command needs in order to end. -/
theorem dutifulHostGetsAResult : Obligations.DutifulHostGetsAResult := by
  intro i s hinv hduty
  cases hunit : i.unit with
  | cc =>
    have hreads : CcReadable i s := fun hp => by
      have hready : s.recordReady := by
        cases i with
        | ccEnc | ccDec => exact hduty hp
        | rcEnc | rcDec | rcAuto => cases hunit
      exact ⟨hready 0, fun _ => hready⟩
    exact ⟨_, (exec_cc_eq_next_iff hunit s _).mpr ⟨hreads, rfl⟩⟩
  | rc =>
    obtain ⟨p, n, hi⟩ := exists_isRc_of_unit hunit
    by_cases hinvalid : p = false ∨ n < 512
    · exact ⟨_, (exec_rc_eq_next_iff hi s _).mpr (.inl ⟨hinvalid, rfl⟩)⟩
    · obtain ⟨hp, hblock⟩ := not_or.mp hinvalid
      obtain rfl : p = true := by simpa using hp
      obtain ⟨hsize, hwritten⟩ : n = s.len ∧ s.bufReady n := by
        obtain rfl | rfl | rfl := hi <;> exact hduty rfl
      exact ⟨_, State.RcReady.exec_eq ⟨Nat.not_lt.mp hblock, hinv.bufSorted, hsize, hwritten⟩ hi⟩

/-! ### The invariant through a step -/

theorem State.Inv.withAgenda {s : State} (h : s.Inv) (a : List Event) : { s with agenda := a }.Inv :=
  ⟨h.bufSorted, h.bufInside, h.ccSound, h.rcSound⟩

theorem State.Inv.setCommand {s : State} (h : s.Inv) {u : CoreUnit} {c : Option Instr} (hc : slotSound u c) :
    (s.setCommand u c).Inv := by
  cases u with
  | cc => exact ⟨h.bufSorted, h.bufInside, hc, h.rcSound⟩
  | rc => exact ⟨h.bufSorted, h.bufInside, h.ccSound, hc⟩

theorem State.Inv.command_sound {s : State} (h : s.Inv) (u : CoreUnit) : slotSound u (s.command u) := by
  cases u with
  | cc => exact h.ccSound
  | rc => exact h.rcSound

/-- R83 to R85: a command keeps the invariant; a pass changes no offset of `BUF`. -/
theorem exec_keepsInv {i : Instr} {s t : State} (hinv : s.Inv) (h : exec i s = .next t) : t.Inv := by
  obtain ⟨hsorted, hinside, hcc, hrc⟩ := hinv
  cases hunit : i.unit with
  | cc =>
    rw [exec_cc_frame i s t hunit h]
    exact ⟨hsorted, hinside, hcc, hrc⟩
  | rc =>
    obtain ⟨p, n, hi⟩ := exists_isRc_of_unit hunit
    obtain ⟨-, rfl⟩ | ⟨-, -, -, -, rfl⟩ := (exec_rc_eq_next_iff hi s t).mp h
    · exact ⟨hsorted, hinside, hcc, hrc⟩
    · exact ⟨memMap_wf n _ s.buf hsorted, memMap_inside n s.len _ s.buf hinside, hcc, hrc⟩

theorem completeUnit_keepsInv {u : CoreUnit} {s t : State} (hinv : s.Inv) (h : completeUnit u s = .next t) : t.Inv := by
  obtain ⟨-, rfl⟩ | ⟨i, -, hx⟩ := completeUnit_eq_next u s t h
  · exact hinv
  · exact exec_keepsInv (hinv.setCommand (u := u) (c := none) trivial) hx

/-- R37: a byte the host writes below `LEN` stays inside `BUF`. -/
theorem State.Inv.hostWriteBufByte {s : State} (h : s.Inv) {i : Nat} (hi : i < s.len) (v : Byte) :
    (s.hostWriteBufByte i v).Inv := by
  refine ⟨memWrite_wf s.buf i v h.bufSorted, fun c hc => ?_, h.ccSound, h.rcSound⟩
  obtain rfl | hc := mem_memWrite s.buf i v c hc
  · exact hi
  · exact h.bufInside c hc

theorem runEvent_keepsInv {e : Event} {s t : State} (hinv : s.Inv) (h : runEvent e s = .next t) : t.Inv := by
  cases e with
  | hostWriteRecord j v =>
    obtain ⟨-, h⟩ := hostAccess_eq_next _ _ _ _ h
    cases h; exact ⟨hinv.bufSorted, hinv.bufInside, hinv.ccSound, hinv.rcSound⟩
  | hostReadRecord j =>
    obtain ⟨-, h⟩ := hostAccess_eq_next _ _ _ _ h
    cases h; exact hinv
  | hostSetLen n =>
    obtain ⟨-, h⟩ := hostAccess_eq_next _ _ _ _ h
    cases h
    exact ⟨memBelow_wf n s.buf hinv.bufSorted, fun c hc => ((mem_memBelow n s.buf c).mp hc).2, hinv.ccSound,
      hinv.rcSound⟩
  | hostWriteBuf i v =>
    obtain ⟨-, hi, h⟩ := hostBufAccess_eq_next _ _ _ _ h
    cases h; exact hinv.hostWriteBufByte hi v
  | hostReadBuf i =>
    obtain ⟨-, -, h⟩ := hostBufAccess_eq_next _ _ _ _ h
    cases h; exact hinv
  | call w =>
    obtain ⟨i, -, -, hx⟩ := accept_eq_next w s t _ h
    exact exec_keepsInv hinv hx
  | issue w =>
    obtain ⟨i, hdecode, -, hx⟩ := accept_eq_next w s t _ h
    cases hx; exact hinv.setCommand ⟨rfl, (fields_of_decode hdecode).1⟩
  | complete u => exact completeUnit_keepsInv hinv h
  | reset =>
    obtain ⟨-, -, rfl⟩ := hostReset_eq_next s t h
    exact ⟨List.Pairwise.nil, fun _ hc => absurd hc List.not_mem_nil, trivial, trivial⟩

/-- Settles O16: every move, and the drain, keeps the invariant. -/
theorem stepKeepsInvariant : Obligations.StepKeepsInvariant := by
  intro s t hinv h
  obtain ⟨e, rest, -, hrun⟩ | ⟨-, u, hcomplete⟩ := step_eq_next s t h
  · exact runEvent_keepsInv (hinv.withAgenda rest) hrun
  · exact completeUnit_keepsInv hinv hcomplete

/-! ### The results through a step -/

/-- R27, R105: a completion presents nothing of an idle unit, and the result of the command in progress otherwise; the
unit is idle afterwards. -/
theorem completeUnit_results {u : CoreUnit} {s t : State} (hinv : s.Inv) (h : completeUnit u s = .next t) :
    t.results = s.results ∨ ∃ i : Instr, i.unit = u ∧ s.command u = some i ∧ t.command u = none ∧
      t.results = s.results ++ [⟨i.unit, verdict s.record[(0 : Fin 6)] i⟩] := by
  obtain ⟨-, rfl⟩ | ⟨i, hslot, hx⟩ := completeUnit_eq_next u s t h
  · exact .inl rfl
  · have hsound : slotSound u (some i) := hslot ▸ hinv.command_sound u
    refine .inr ⟨i, hsound.1, hslot, (exec_command hx u).trans (State.command_setCommand_self _ _ _), ?_⟩
    simpa using resultFollowsOutcomeTable i _ t hx

/-- Settles O18: only a called command and a completion present a result, one each. -/
theorem resultsArePresentedOnce : Obligations.ResultsArePresentedOnce := by
  intro s t hinv h
  obtain ⟨e, rest, hagenda, hrun⟩ | ⟨hagenda, u, hcomplete⟩ := step_eq_next s t h
  · cases e with
    | hostWriteRecord j v =>
      obtain ⟨-, hnext⟩ := hostAccess_eq_next _ _ _ _ hrun
      cases hnext; exact .inl rfl
    | hostReadRecord j =>
      obtain ⟨-, hnext⟩ := hostAccess_eq_next _ _ _ _ hrun
      cases hnext; exact .inl rfl
    | hostSetLen n =>
      obtain ⟨-, hnext⟩ := hostAccess_eq_next _ _ _ _ hrun
      cases hnext; exact .inl rfl
    | hostWriteBuf i v =>
      obtain ⟨-, -, hnext⟩ := hostBufAccess_eq_next _ _ _ _ hrun
      cases hnext; exact .inl rfl
    | hostReadBuf i =>
      obtain ⟨-, -, hnext⟩ := hostBufAccess_eq_next _ _ _ _ hrun
      cases hnext; exact .inl rfl
    | call w =>
      obtain ⟨i, hdecode, hidle, hx⟩ := accept_eq_next w _ t _ hrun
      exact .inr ⟨i, resultFollowsOutcomeTable i { s with agenda := rest } t hx, (exec_command hx i.unit).trans hidle,
        .inl ⟨w, rest, hagenda, hdecode⟩⟩
    | issue w =>
      obtain ⟨i, -, -, hx⟩ := accept_eq_next w _ t _ hrun
      cases hx; exact .inl (State.setCommand_results _ _ _)
    | complete u =>
      obtain hsame | ⟨i, rfl, hslot, hidle, hresults⟩ := completeUnit_results (hinv.withAgenda rest) hrun
      · exact .inl hsame
      · exact .inr ⟨i, hresults, hidle, .inr ⟨hslot, .inr ⟨rest, hagenda⟩⟩⟩
    | reset =>
      obtain ⟨-, -, rfl⟩ := hostReset_eq_next _ t hrun
      exact .inl rfl
  · obtain hsame | ⟨i, rfl, hslot, hidle, hresults⟩ := completeUnit_results hinv hcomplete
    · exact .inl hsame
    · exact .inr ⟨i, hresults, hidle, .inr ⟨hslot, .inl hagenda⟩⟩

end Sys2Proof.Machine
end

section
/-! PROOFS. The code cipher (R62 to R79): the transforms byte by byte, the auto key, what failures and unwritten
registers give, and the round trips. -/

namespace Sys2Proof.Machine

/-! ### Commands on a record that can be read -/

/-- R69 to R73: a CC command that reads only written registers ends. -/
theorem exec_cc_of_readable {i : Instr} (hunit : i.unit = .cc) {s : State} (h : CcReadable i s) :
    exec i s = .next ((s.writeRecord (ccLeaves Config.hardware i s.record)).present .cc
      (verdict s.record[(0 : Fin 6)] i)) :=
  (exec_cc_eq_next_iff hunit s _).mpr ⟨h, rfl⟩

theorem State.recordReady.ccReadable {s : State} (h : s.recordReady) (i : Instr) : CcReadable i s :=
  fun _ => ⟨h 0, fun _ => h⟩

/-- R117: a command that presents an error reads byte 0 alone. -/
theorem CcReadable.of_error {i : Instr} {s : State} (hzero : s.recordWritten[(0 : Fin 6)] = true)
    (herror : verdict s.record[(0 : Fin 6)] i ≠ .ok) : CcReadable i s :=
  fun _ => ⟨hzero, fun hok => absurd hok herror⟩

/-- Settles O25: the presence check comes before every read. -/
theorem absentRecordIsInvalid : Obligations.AbsentRecordIsInvalid :=
  fun _ _ => ⟨rfl, rfl⟩

/-! ### The transforms byte by byte -/

/-- R71: each encrypt step sees the masked byte 0 and the original bytes between. -/
theorem encryptRecord_other (g : CodeFormulas) (k : Key) (r : Vector Byte 6) {j : Fin 6} (hj : j ≠ 0) :
    (encryptRecord g k r)[j] =
      g.encStep k j r[j] ((r[(0 : Fin 6)] ^^^ k.toByte) :: (r.toList.take j).drop 1) := by
  obtain ⟨a, b, c, d, e, f, rfl⟩ := record_cases r
  rw [encryptRecord_mk]
  fin_cases j
  · exact absurd rfl hj
  all_goals rfl

/-- R72: each decrypt step sees the bytes already restored. -/
theorem decryptRecord_other (g : CodeFormulas) (k : Key) (r : Vector Byte 6) {j : Fin 6} (hj : j ≠ 0) :
    (decryptRecord g k r)[j] = g.decStep k j r[j] ((decryptRecord g k r).toList.take j) := by
  obtain ⟨a, b, c, d, e, f, rfl⟩ := record_cases r
  rw [decryptRecord_mk, decryptSteps_mk]
  fin_cases j
  · exact absurd rfl hj
  all_goals rfl

theorem decryptRecord_byte0 (g : CodeFormulas) (k : Key) (r : Vector Byte 6) :
    (decryptRecord g k r)[0] = r[0] ^^^ k.toByte :=
  (decryptSteps_byte0 g k _).trans (maskByte0_byte0 k.toByte r)

/-- Settles O26: the encrypted record, byte by byte. -/
theorem ccEncClosedForm : Obligations.CcEncClosedForm := by
  intro s k hready
  exact ⟨_, ccEncrypt_of_ready Config.hardware k s hready, encryptRecord_byte0 _ k s.record,
    fun j hj => encryptRecord_other _ k s.record hj, rfl⟩

/-- Settles O27: the decrypted record, byte by byte. -/
theorem ccDecClosedForm : Obligations.CcDecClosedForm := by
  intro s k hready
  exact ⟨_, ccDecrypt_of_ready Config.hardware k s hready, decryptRecord_byte0 _ k s.record,
    fun j hj => decryptRecord_other _ k s.record hj, rfl⟩

/-- R62: a concrete key has no bit from bit 3 on. -/
theorem toByte_getLsbD (k : Key) {b : Nat} (hb : 3 ≤ b) : k.toByte.getLsbD b = false := by
  have hsmall : k.toByte.toNat < 2 ^ 3 := by cases k <;> decide
  exact Nat.testBit_lt_two_pow (Nat.lt_of_lt_of_le hsmall (Nat.pow_le_pow_right (by decide) hb))

/-- R62: an explicit concrete key XORs byte 0, or leaves it when the record is absent. -/
theorem ccLeaves_byte0_of_key (cfg : Config) (p : Bool) (k : Key) (r : Vector Byte 6) {i : Instr}
    (hi : i = .ccEnc p k.toInt ∨ i = .ccDec p k.toInt) :
    (ccLeaves cfg i r)[0] = if p then r[0] ^^^ k.toByte else r[0] := by
  obtain rfl | rfl := hi <;> cases p
  · rfl
  · rw [ccLeaves, ccKeyedLeaves_of_key, encryptRecord_byte0, if_pos rfl]
  · rfl
  · rw [ccLeaves, if_neg k.toInt_ne_auto, ccKeyedLeaves_of_key, decryptRecord_byte0, if_pos rfl]

/-- Settles O31: byte 0 changes by the key, which has bits 0 to 2 only. -/
theorem explicitKeyKeepsHighBits : Obligations.ExplicitKeyKeepsHighBits := by
  intro s t p k b hb h
  obtain ⟨i, hi, hexec⟩ : ∃ i, (i = .ccEnc p k.toInt ∨ i = .ccDec p k.toInt) ∧ exec i s = .next t := by
    obtain h | h := h
    · exact ⟨_, .inl rfl, h⟩
    · exact ⟨_, .inr rfl, h⟩
  have hunit : i.unit = .cc := by obtain rfl | rfl := hi <;> rfl
  obtain ⟨-, rfl⟩ := (exec_cc_eq_next_iff hunit s t).mp hexec
  have hbyte := ccLeaves_byte0_of_key Config.hardware p k s.record hi
  refine (congrArg (BitVec.getLsbD · b) hbyte).trans ?_
  cases p
  · rfl
  · rw [if_pos rfl, BitVec.getLsbD_xor, toByte_getLsbD k hb, Bool.xor_false]
    rfl

/-! ### The auto key -/

/-- R70, R72: XORing a byte with its own low nibble clears the nibble. -/
theorem xor_autoNibble (b : Byte) : b ^^^ autoNibble b = b &&& 0xF0#8 := by
  revert b
  decide

/-- R79: a byte whose low nibble is cleared carries the nibble 0. -/
theorem autoNibble_cleared (b : Byte) : autoNibble (b &&& 0xF0#8) = 0#8 := by
  rw [autoNibble, BitVec.and_assoc]
  exact BitVec.and_zero

/-- R79: with auto byte 0 is left with its low nibble cleared, whatever the nibble was. -/
theorem ccAutoLeaves_byte0 (cfg : Config) (r : Vector Byte 6) : (ccAutoLeaves cfg r)[0] = r[0] &&& 0xF0#8 := by
  by_cases hbad : ∀ k : Key, autoNibble r[0] ≠ k.toByte
  · rw [ccAutoLeaves_of_failure cfg hbad, maskByte0_byte0, xor_autoNibble]
  · obtain ⟨k, hk⟩ := not_forall_not.mp hbad
    rw [ccAutoLeaves_of_key cfg hk, decryptRecord_byte0, ← hk, xor_autoNibble]

/-- R70: a low nibble of a concrete key's value passes. -/
theorem verdict_ccDec_auto_of_key {b : Byte} {k : Key} (h : autoNibble b = k.toByte) :
    verdict b (.ccDec true keyAuto) = .ok :=
  (keyVerdict_eq_ok _).mpr ⟨k, (autoNibble_eq_key b k).mpr h⟩

/-- R70: any other low nibble does not. -/
theorem verdict_ccDec_auto_of_failure {b : Byte} (h : ∀ k : Key, autoNibble b ≠ k.toByte) :
    verdict b (.ccDec true keyAuto) = .unsupportedKey :=
  keyVerdict_of_failure ((keyOfInt_autoNibble_eq_none b).mpr h)

/-- R70, R72: with auto and a good nibble `CC.DEC` ends as with the explicit key. -/
theorem exec_ccDec_auto_of_key {s : State} {k : Key} (hready : s.recordReady)
    (h : autoNibble s.record[(0 : Fin 6)] = k.toByte) :
    exec (.ccDec true keyAuto) s =
      .next ((s.writeRecord (decryptRecord Config.hardware.formulas k s.record)).present .cc .ok) := by
  rw [exec_cc_of_readable rfl (hready.ccReadable _), verdict_ccDec_auto_of_key h, ccLeaves, if_pos rfl,
    ccAutoLeaves_of_key Config.hardware h]

/-- R70, R72: with auto and a bad nibble `CC.DEC` fails, and has unmasked byte 0 already. -/
theorem exec_ccDec_auto_of_failure {s : State} (hzero : s.recordWritten[(0 : Fin 6)] = true)
    (h : ∀ k : Key, autoNibble s.record[(0 : Fin 6)] ≠ k.toByte) :
    exec (.ccDec true keyAuto) s =
      .next ((s.writeRecord (maskByte0 (autoNibble s.record[(0 : Fin 6)]) s.record)).present .cc .unsupportedKey) := by
  have hverdict := verdict_ccDec_auto_of_failure h
  have hreads : CcReadable (.ccDec true keyAuto) s := .of_error hzero (by rw [hverdict]; decide)
  rw [exec_cc_of_readable rfl hreads, hverdict, ccLeaves, if_pos rfl, ccAutoLeaves_of_failure Config.hardware h]
  rfl

/-- Settles O28: by whether the low nibble of byte 0 is a concrete key. -/
theorem ccDecAutoByNibble : Obligations.CcDecAutoByNibble := by
  intro s
  refine ⟨fun k hready hnibble => ?_, fun hzero hbad => ?_⟩
  · have hauto := exec_ccDec_auto_of_key hready hnibble
    refine ⟨hauto.trans (ccDecrypt_of_ready Config.hardware k s hready).symm, _, hauto, ?_, rfl⟩
    refine (decryptRecord_byte0 _ k s.record).trans ?_
    rw [← hnibble]
    exact xor_autoNibble _
  · refine (exec_ccDec_auto_of_failure hzero hbad).trans ?_
    rw [maskByte0, ← xor_autoNibble]
    rfl

/-! ### Failures -/

/-- Settles O29: a key that names no concrete one makes the failure's write, after a read of byte 0 alone. -/
theorem keyFailuresLeave : Obligations.KeyFailuresLeave := by
  intro s key hzero hkey left
  have hnone : keyOfInt key = none := (keyOfInt_eq_none key).mpr hkey
  have hleft : failWrite Config.hardware.ccFailWritesB0 key s.record = left := rfl
  have henc : verdict s.record[(0 : Fin 6)] (.ccEnc true key) =
      if key = -1 then .invalidInput else .unsupportedKey := by
    split
    · rename_i hauto
      rw [hauto]
      exact verdict_ccEnc_auto _
    · rename_i hauto
      rw [verdict_ccEnc_explicit _ hauto, keyVerdict_of_failure hnone]
  refine ⟨?_, fun hauto => ?_⟩
  · have hreads : CcReadable (.ccEnc true key) s := .of_error hzero (by rw [henc]; split <;> decide)
    rw [exec_cc_of_readable rfl hreads, henc, ccLeaves, ccKeyedLeaves_of_failure _ _ hnone, hleft]
    rfl
  · have hdec : verdict s.record[(0 : Fin 6)] (.ccDec true key) = .unsupportedKey := by
      rw [verdict_ccDec_explicit _ hauto, keyVerdict_of_failure hnone]
    have hreads : CcReadable (.ccDec true key) s := .of_error hzero (by rw [hdec]; decide)
    rw [exec_cc_of_readable rfl hreads, hdec, ccLeaves, if_neg hauto, ccKeyedLeaves_of_failure _ _ hnone, hleft]
    rfl

/-- R29, R117: the outcome is the fault of a register the host has not written. -/
def FaultsOnRegister (s : State) (o : Host.Outcome State Fault Refusal) : Prop :=
  ∃ m : Fin 6, o = .fault (.unwrittenRecord m) ∧ s.recordWritten[m] = false

/-- R29: the formula steps fault when some register is unwritten. -/
theorem ccTransform_faults (g : Vector Byte 6 → Vector Byte 6) {s : State} {j : Fin 6}
    (h : s.recordWritten[j] = false) : FaultsOnRegister s (ccTransform g s) := by
  cases hread : s.readRecord with
  | error e =>
    obtain ⟨m, rfl, hm⟩ := s.readRecord_eq_error e hread
    exact ⟨m, by simp only [ccTransform, hread], hm⟩
  | ok r =>
    obtain ⟨hready, -⟩ := (s.readRecord_eq_ok r).mp hread
    exact absurd ((hready j).symm.trans h) (by decide)

/-- R117: a command faults on byte 0, or as its body does on byte 0. -/
theorem ccChecked_faults {s : State} {body : Byte → Host.Outcome State Fault Refusal}
    (h : FaultsOnRegister s (body s.record[(0 : Fin 6)])) : FaultsOnRegister s (ccChecked true s body) := by
  cases hzero : s.recordWritten[(0 : Fin 6)] with
  | true => rwa [ccChecked_of_written s body hzero]
  | false => exact ⟨0, ccChecked_of_unwritten s body hzero, hzero⟩

/-- Settles O30: byte 0 is read first, the rest by the formula steps once the key is a concrete one. -/
theorem unwrittenRecordFaults : Obligations.UnwrittenRecordFaults := by
  intro s k key j
  refine ⟨fun hzero => ⟨ccChecked_of_unwritten s _ hzero, ccChecked_of_unwritten s _ hzero⟩, fun hj => ?_,
    fun hj hnibble => ?_⟩
  · obtain ⟨m, henc, hm⟩ : FaultsOnRegister s (exec (.ccEnc true k.toInt) s) := by
      refine ccChecked_faults ?_
      rw [if_neg k.toInt_ne_auto, keyOfInt_toInt]
      exact ccTransform_faults _ hj
    obtain ⟨m', hdec, hm'⟩ : FaultsOnRegister s (exec (.ccDec true k.toInt) s) := by
      refine ccChecked_faults ?_
      rw [if_neg k.toInt_ne_auto, keyOfInt_toInt]
      exact ccTransform_faults _ hj
    exact ⟨m, m', henc, hm, hdec, hm'⟩
  · refine ccChecked_faults ?_
    rw [if_pos rfl, (keyOfInt_autoNibble_eq_some _ k).mpr hnibble]
    exact ccTransform_faults _ hj

/-! ### Round trips -/

/-- R68 as the steps of a record use it: the decrypt step saw byte 0 unmasked, the encrypt step sees it as it was. -/
theorem encStep_decStep (g : CodeFormulas) (k : Key) {j : Nat} (y q : Byte) (low : List Byte)
    (hlen : low.length + 1 = j) (hj : j ≤ 5) :
    g.encStep k j (g.decStep k j y ((q ^^^ k.toByte) :: low)) (q :: low) = y := by
  have hlaw := g.inverse_right k j y ((q ^^^ k.toByte) :: low) (by omega) hj hlen
  rwa [maskLow_cons, xor_cancel_right] at hlaw

/-- R77 on records: the encrypt step at `j` finds the bytes that the decrypt step at `j` saw, with byte 0 masked. -/
theorem encryptRecord_decryptRecord (g : CodeFormulas) (k : Key) (r : Vector Byte 6) :
    encryptRecord g k (decryptRecord g k r) = r := by
  obtain ⟨a, b, c, d, e, f, rfl⟩ := record_cases r
  rw [decryptRecord_mk, decryptSteps_mk, encryptRecord_mk, xor_cancel_right]
  simp only [encStep_decStep, List.length_cons, List.length_nil, Nat.reduceAdd, Nat.reduceLeDiff]

/-- Settles O33: both commands end on a written record, and the second one's record is the first one's input. -/
theorem codeCipherReverseRoundTrip : Obligations.CodeCipherReverseRoundTrip := by
  refine ⟨fun s k hready => ?_, encryptRecord_decryptRecord⟩
  have hdec := ccDecrypt_of_ready Config.hardware k s hready
  have henc := ccEncrypt_of_ready Config.hardware k
    ((s.writeRecord (decryptRecord Config.hardware.formulas k s.record)).present .cc .ok) hready
  refine ⟨_, _, hdec, henc, ?_⟩
  rw [State.present_ok_twice, State.present_record, State.writeRecord_record, encryptRecord_decryptRecord]

/-- R75: masking a byte of low nibble 0 with a key makes the key its auto key. -/
theorem autoNibble_masked (b : Byte) (k : Key) (h : autoNibble b = 0#8) :
    autoNibble (b ^^^ k.toByte) = k.toByte := by
  have hkey : k.toByte &&& nibbleMask = k.toByte := by cases k <;> rfl
  have hdistrib : autoNibble (b ^^^ k.toByte) = autoNibble b ^^^ (k.toByte &&& nibbleMask) := by
    refine BitVec.eq_of_getLsbD_eq fun n _ => ?_
    simp only [autoNibble, BitVec.getLsbD_and, BitVec.getLsbD_xor, Bool.and_xor_distrib_right]
  rw [hdistrib, h, hkey, BitVec.zero_xor]

/-- Settles O34: auto always leaves a low nibble of 0; from such a nibble it finds the key, and undoes the encryption. -/
theorem autoRoundTripIffNibbleZero : Obligations.AutoRoundTripIffNibbleZero := by
  intro s k hready
  have henc := ccEncrypt_of_ready Config.hardware k s hready
  have hdec := exec_cc_of_readable (i := .ccDec true keyAuto) rfl
    (State.recordReady.ccReadable
      (s := (s.writeRecord (encryptRecord Config.hardware.formulas k s.record)).present .cc .ok) hready _)
  refine ⟨_, _, henc, hdec, ?_⟩
  show ccAutoLeaves Config.hardware (encryptRecord Config.hardware.formulas k s.record) = s.record ↔
    autoNibble s.record[0] = 0#8
  constructor
  · intro hrestored
    rw [← hrestored, ccAutoLeaves_byte0, autoNibble_cleared]
  · intro hnibble
    have hkey : autoNibble (encryptRecord Config.hardware.formulas k s.record)[0] = k.toByte := by
      rw [encryptRecord_byte0, autoNibble_masked _ k hnibble]
    rw [ccAutoLeaves_of_key _ hkey, decryptRecord_encryptRecord]

end Sys2Proof.Machine
end

section
/-! PROOFS. The ROM cipher (R31, R82 to R92): the signature word, the direction of `RC.AUTO`, the round trips, and the
failures. -/

namespace Sys2Proof.Machine

/-! ### Commands that fail -/

/-- Settles O36: the input check comes before every access to `BUF`. -/
theorem shortOrAbsentBufferIsInvalid : Obligations.ShortOrAbsentBufferIsInvalid := by
  intro p n s h
  exact ⟨rcChecked_of_invalid p n s _ h, rcChecked_of_invalid p n s _ h, rcChecked_of_invalid p n s _ h⟩

/-- Settles O48: the length check stands between the input check and the pass. -/
theorem wrongLengthIsRefused : Obligations.WrongLengthIsRefused := by
  intro s n hblock hlen
  exact ⟨rcChecked_of_mismatch n s _ hblock hlen, rcChecked_of_mismatch n s _ hblock hlen,
    rcChecked_of_mismatch n s _ hblock hlen⟩

/-- R118: a pass faults at the least unwritten byte. -/
theorem rcPass_of_unwritten {s : State} {n i : Nat} (hsorted : Memory.wf s.buf) (hi : i < n)
    (hnone : memRead s.buf i = none) (hbelow : s.bufReady i) (f : Nat → Byte → Byte) :
    rcPass n f s = .fault (.unwrittenBuf i) := by
  have hfirst := (firstUnlisted_eq_some n i s.buf hsorted).mpr ⟨hi, hnone, hbelow⟩
  simp only [rcPass, State.transformBuf, hfirst]

/-- R29, R37: a read of an existing byte fails only because it is unwritten. -/
theorem State.readBuf_eq_error {s : State} {i : Nat} (hi : i < s.len) {e : Fault} (h : s.readBuf i = .error e) :
    e = .unwrittenBuf i ∧ memRead s.buf i = none := by
  rw [State.readBuf, if_pos hi] at h
  split at h
  · cases h
  · rename_i hnone
    exact ⟨(Except.error.inj h).symm, hnone⟩

/-- R29, R31: a read of a word of existing bytes fails only because one of the four is unwritten. -/
theorem State.readBufWord_eq_error {s : State} {i : Nat} (hi : i + 3 < s.len) {e : Fault}
    (h : s.readBufWord i = .error e) : ∃ m, e = .unwrittenBuf m ∧ m ≤ i + 3 ∧ memRead s.buf m = none := by
  have hfault : ∀ k, k ≤ 3 → s.readBuf (i + k) = .error e →
      ∃ m, e = .unwrittenBuf m ∧ m ≤ i + 3 ∧ memRead s.buf m = none := fun k hk hread =>
    have herror := State.readBuf_eq_error (by omega) hread
    ⟨i + k, herror.1, by omega, herror.2⟩
  cases h0 : s.readBuf i with
  | error e0 => simp only [State.readBufWord, h0] at h; cases h; exact hfault 0 (by decide) h0
  | ok b0 =>
  cases h1 : s.readBuf (i + 1) with
  | error e1 => simp only [State.readBufWord, h0, h1] at h; cases h; exact hfault 1 (by decide) h1
  | ok b1 =>
  cases h2 : s.readBuf (i + 2) with
  | error e2 => simp only [State.readBufWord, h0, h1, h2] at h; cases h; exact hfault 2 (by decide) h2
  | ok b2 =>
  cases h3 : s.readBuf (i + 3) with
  | error e3 => simp only [State.readBufWord, h0, h1, h2, h3] at h; cases h; exact hfault 3 (by decide) h3
  | ok b3 =>
    rw [s.readBufWord_of_bytes i b0 b1 b2 b3 h0 h1 h2 h3] at h
    cases h

/-- Settles O47: both passes fault at the least unwritten byte; `RC.AUTO` there or in its read of the signature. -/
theorem unwrittenBufferFaults : Obligations.UnwrittenBufferFaults := by
  intro s n i hblock hinv hlen hi hnone hbelow
  have henc : exec (.rcEnc true n) s = .fault (.unwrittenBuf i) :=
    (rcChecked_of_valid n s _ hblock hlen).trans (rcPass_of_unwritten hinv.bufSorted hi hnone hbelow _)
  have hdec : exec (.rcDec true n) s = .fault (.unwrittenBuf i) :=
    (rcChecked_of_valid n s _ hblock hlen).trans (rcPass_of_unwritten hinv.bufSorted hi hnone hbelow _)
  refine ⟨henc, hdec, ?_⟩
  cases hword : s.readBufWord sigOffset with
  | ok w => exact ⟨i, by rw [exec_rcAuto_of_word hword, henc, hdec, ite_self], hi, hnone⟩
  | error e =>
    have hend : sigOffset + 3 < n := Nat.lt_of_lt_of_le (by decide) hblock
    obtain ⟨m, rfl, hm, hmnone⟩ := State.readBufWord_eq_error (hlen ▸ hend) hword
    refine ⟨m, ?_, Nat.lt_of_le_of_lt hm hend, hmnone⟩
    rw [exec_rcAuto, rcChecked_of_valid n s _ hblock hlen, hword]

/-! ### The signature -/

/-- R31: the value of four bytes, the first the least significant. -/
theorem littleEndianWord_toNat (b0 b1 b2 b3 : Byte) :
    (littleEndianWord b0 b1 b2 b3).toNat =
      b0.toNat + 256 * b1.toNat + 65536 * b2.toNat + 16777216 * b3.toNat := by
  have hcat : ∀ {w : Nat} (hi : BitVec w) (lo : Byte), (hi ++ lo).toNat = 256 * hi.toNat + lo.toNat := fun hi lo => by
    rw [BitVec.toNat_append, ← Nat.shiftLeft_add_eq_or_of_lt lo.isLt, Nat.shiftLeft_eq, Nat.mul_comm]
  rw [littleEndianWord, hcat, hcat, hcat]
  omega

/-- R31, R86: four bytes make the signature exactly when they are 53 6F 6E 79. -/
theorem littleEndianWord_eq_sigWord (b0 b1 b2 b3 : Byte) :
    littleEndianWord b0 b1 b2 b3 = sigWord ↔ b0 = 0x53#8 ∧ b1 = 0x6F#8 ∧ b2 = 0x6E#8 ∧ b3 = 0x79#8 := by
  simp only [← BitVec.toNat_inj, littleEndianWord_toNat, BitVec.toNat_ofNat]
  have h0 := b0.isLt
  have h1 := b1.isLt
  have h2 := b2.isLt
  have h3 := b3.isLt
  omega

/-- Settles O40: the word is the four bytes composed, and a word's bytes are its own. -/
theorem signatureIsLittleEndian : Obligations.SignatureIsLittleEndian :=
  fun s b0 b1 b2 b3 h0 h1 h2 h3 => ⟨_, s.readBufWord_of_bytes 0x10 b0 b1 b2 b3 h0 h1 h2 h3,
    littleEndianWord_toNat b0 b1 b2 b3, littleEndianWord_eq_sigWord b0 b1 b2 b3⟩

/-- Settles O41: the word at 0x10 is the signature exactly when the four bytes there are 53 6F 6E 79. -/
theorem rcAutoChoosesDirection : Obligations.RcAutoChoosesDirection := by
  intro s n hblock hinv hlen hwritten
  have hready : s.RcReady n := ⟨hblock, hinv.bufSorted, hlen, hwritten⟩
  obtain ⟨b0, b1, b2, b3, h0, h1, h2, h3, hword⟩ := s.readSignature_of_ready n hblock hlen hwritten
  rw [h0, h1, h2, h3, exec_rcAuto_of_word hword]
  simp only [Option.some.injEq, ← littleEndianWord_eq_sigWord]
  refine ⟨⟨_, (exec_rcAuto_of_word hword true n).symm.trans (hready.exec_eq (.inr (.inr rfl))), rfl⟩,
    fun hsig => if_pos hsig, fun hsig => if_neg hsig⟩

/-! ### One byte -/

/-- R88: decryption undoes encryption, byte by byte. -/
theorem romDecByte_romEncByte (s1 s2 b : Byte) : romDecByte s1 s2 (romEncByte s1 s2 b) = b := by
  rw [romDecByte, romEncByte, xor_cancel_right, BitVec.sub_add_cancel]

/-- R89: encryption undoes decryption, byte by byte. -/
theorem romEncByte_romDecByte (s1 s2 c : Byte) : romEncByte s1 s2 (romDecByte s1 s2 c) = c := by
  rw [romDecByte, romEncByte, BitVec.add_sub_cancel, xor_cancel_right]

/-- R90: XOR with 0xFF is the complement, `-x - 1`. -/
theorem xor_allOnes (x : Byte) : x ^^^ 0xFF#8 = -x - 1#8 :=
  BitVec.xor_allOnes.trans (BitVec.not_eq_neg_add x)

/-- Settles O46: with `s1` = 0xFF the transform is `s2 - 1 - b`, with `s2` = 0 it is one XOR. -/
theorem romEncryptTwice : Obligations.RomEncryptTwice := by
  refine ⟨by decide, by decide, fun s2 b => ?_, fun s1 b => ?_⟩
  · simp only [romEncByte, xor_allOnes]
    ring
  · simp only [romEncByte, BitVec.sub_zero, xor_cancel_right]

/-- Settles O51: with `s1` = 0xFF the transform is `s2 - 1 - c`, with `s2` = 0 it is one XOR. -/
theorem romDecryptTwice : Obligations.RomDecryptTwice := by
  refine ⟨by decide, by decide, fun s2 c => ?_, fun s1 c => ?_⟩
  · simp only [romDecByte, xor_allOnes]
    ring
  · simp only [romDecByte, BitVec.add_zero, xor_cancel_right]

/-! ### Two commands on one buffer -/

/-- R85: two passes whose transforms undo each other leave the state but for the two results. -/
theorem State.afterPass_afterPass (s : State) (n : Nat) {f g : Nat → Byte → Byte} (h : ∀ i b, g i (f i b) = b) :
    (s.afterPass n f).afterPass n g = { s with results := s.results ++ [⟨.rc, .ok⟩, ⟨.rc, .ok⟩] } := by
  have hbuf : memMap n g (memMap n f s.buf) = s.buf := by
    rw [memMap_memMap]
    simp only [h]
    exact memMap_id n s.buf
  simp only [State.afterPass, State.present, hbuf, List.append_assoc, List.singleton_append]

/-- Settles O42: the second pass undoes the first byte by byte, with the same table entries. -/
theorem romCipherRoundTrip : Obligations.RomCipherRoundTrip := by
  intro s n hblock hinv hlen hwritten
  have hready : s.RcReady n := ⟨hblock, hinv.bufSorted, hlen, hwritten⟩
  exact ⟨_, _, hready.exec_eq (.inl rfl), (hready.afterPass s.romEncAt).exec_eq (.inr (.inl rfl)),
    s.afterPass_afterPass n fun i b => romDecByte_romEncByte (s.seed1 i) (s.seed2 i) b⟩

/-- Settles O43: the same in the other order. -/
theorem romCipherReverseRoundTrip : Obligations.RomCipherReverseRoundTrip := by
  intro s n hblock hinv hlen hwritten
  have hready : s.RcReady n := ⟨hblock, hinv.bufSorted, hlen, hwritten⟩
  exact ⟨_, _, hready.exec_eq (.inr (.inl rfl)), (hready.afterPass s.romDecAt).exec_eq (.inl rfl),
    s.afterPass_afterPass n fun i c => romEncByte_romDecByte (s.seed1 i) (s.seed2 i) c⟩

/-- Settles O45: the first command encrypts; the second decrypts that unless the signature is there again. -/
theorem autoTwiceFromSignature : Obligations.AutoTwiceFromSignature := by
  intro s n hblock hinv hlen hwritten hsigned
  have hready : s.RcReady n := ⟨hblock, hinv.bufSorted, hlen, hwritten⟩
  have hready' := hready.afterPass s.romEncAt
  have hfirst : exec (.rcAuto true n) s = .next (s.afterPass n s.romEncAt) := by
    rw [exec_rcAuto_of_word hsigned, if_pos rfl]
    exact hready.exec_eq (.inl rfl)
  refine ⟨_, _, hfirst, hready'.exec_eq (.inr (.inr rfl)), fun hother => ?_, fun hagain => ?_⟩
  · have hundo : (s.afterPass n s.romEncAt).afterPass n s.romDecAt =
        { s with results := s.results ++ [⟨.rc, .ok⟩, ⟨.rc, .ok⟩] } :=
      s.afterPass_afterPass n fun i b => romDecByte_romEncByte (s.seed1 i) (s.seed2 i) b
    rw [State.romTransform, if_neg hother]
    show ((s.afterPass n s.romEncAt).afterPass n s.romDecAt).buf = s.buf
    rw [hundo]
  · rw [exec_rcAuto_of_word hagain, if_pos rfl]

/-- R85: what an RC command past its input check leaves at an offset below `LEN`. -/
theorem memRead_of_exec_rc {n : Nat} {i : Instr} (hi : IsRc true n i) (hblock : 512 ≤ n) {s t : State}
    (h : exec i s = .next t) {a : Nat} (ha : a < n) :
    memRead t.buf a = (memRead s.buf a).map (s.romTransform i a) := by
  obtain ⟨hinvalid, -⟩ | ⟨-, -, -, -, rfl⟩ := (exec_rc_eq_next_iff hi s t).mp h
  · exact absurd (hinvalid.resolve_left (by decide)) (Nat.not_lt.mpr hblock)
  · exact (memRead_memMap n _ s.buf a).trans (if_pos ha)

/-- Settles O44: equal offsets modulo 512 have equal table entries, and the transform reads nothing else. -/
theorem romCipherIsPerOffset : Obligations.RomCipherIsPerOffset := by
  intro s s' t t' n n' i k hseeds1 hseeds2 hn hn' hi hk hik hbyte
  have h1 := State.seed1_congr hseeds1 hik
  have h2 := State.seed2_congr hseeds2 hik
  have henc : s.romEncAt i = s'.romEncAt k := by
    funext b
    rw [State.romEncAt, State.romEncAt, h1, h2]
  have hdec : s.romDecAt i = s'.romDecAt k := by
    funext c
    rw [State.romDecAt, State.romDecAt, h1, h2]
  refine ⟨fun h h' => ?_, fun h h' => ?_⟩
  · rw [memRead_of_exec_rc (.inl rfl) hn h hi, memRead_of_exec_rc (.inl rfl) hn' h' hk, hbyte]
    exact congrArg (Option.map · (memRead s'.buf k)) henc
  · rw [memRead_of_exec_rc (.inr (.inl rfl)) hn h hi, memRead_of_exec_rc (.inr (.inl rfl)) hn' h' hk, hbyte]
    exact congrArg (Option.map · (memRead s'.buf k)) hdec

/-! ### Retrying a failed command -/

/-- R106: `CC.DEC` with auto has cleared the low nibble, so retrying it fails and clears nothing more. -/
theorem exec_ccDec_auto_again {s t : State} (h : exec (.ccDec true keyAuto) s = .next t) :
    exec (.ccDec true keyAuto) t = .next { t with results := t.results ++ [⟨.cc, .unsupportedKey⟩] } := by
  obtain ⟨hreads, ht⟩ := (exec_cc_eq_next_iff rfl s t).mp h
  have hzero : t.recordWritten[(0 : Fin 6)] = true := by
    rw [ht]
    exact (hreads rfl).1
  have hnibble : autoNibble t.record[(0 : Fin 6)] = 0#8 := by
    rw [ht]
    exact (congrArg autoNibble (ccAutoLeaves_byte0 Config.hardware s.record)).trans (autoNibble_cleared _)
  have hbad : ∀ k : Key, autoNibble t.record[(0 : Fin 6)] ≠ k.toByte := fun k => by
    rw [hnibble]
    cases k <;> decide
  have hsame : maskByte0 0#8 t.record = t.record := by
    rw [maskByte0, BitVec.xor_zero, Vector.set_getElem_self]
  rw [exec_ccDec_auto_of_failure hzero hbad, hnibble, hsame]
  rfl

/-- R82, R106: an RC command that failed wrote nothing, so its input check fails again. -/
theorem exec_rc_again {p : Bool} {n : Nat} {i : Instr} (hi : IsRc p n i) {s t : State} (h : exec i s = .next t)
    (hfailed : t.results = s.results ++ [⟨.rc, .invalidInput⟩]) :
    exec i t = .next { s with results := s.results ++ [⟨.rc, .invalidInput⟩, ⟨.rc, .invalidInput⟩] } := by
  obtain ⟨hinvalid, rfl⟩ | ⟨-, -, -, -, rfl⟩ := (exec_rc_eq_next_iff hi s t).mp h
  · refine (exec_rc_eq_next_iff hi _ _).mpr (.inl ⟨hinvalid, ?_⟩)
    simp only [State.present, List.append_assoc, List.singleton_append]
  · have hresult := List.append_cancel_left hfailed
    cases hresult

/-- R73: the failure's write is its own inverse. -/
theorem failWrite_failWrite (w : Bool) (key : Int) (r : Vector Byte 6) :
    failWrite w key (failWrite w key r) = r := by
  obtain ⟨a, b, c, d, e, f, rfl⟩ := record_cases r
  cases w
  · rfl
  · simp only [failWrite, if_true, maskByte0_mk, xor_cancel_right]

/-- R73: what an explicit key that names no concrete one leaves. -/
theorem ccLeaves_of_failure (cfg : Config) {key : Int} (hkey : keyOfInt key = none) (hauto : key ≠ keyAuto)
    {i : Instr} (hi : i = .ccEnc true key ∨ i = .ccDec true key) (r : Vector Byte 6) :
    ccLeaves cfg i r = failWrite cfg.ccFailWritesB0 key r := by
  obtain rfl | rfl := hi
  · rw [ccLeaves, ccKeyedLeaves_of_failure cfg _ hkey]
  · rw [ccLeaves, if_neg hauto, ccKeyedLeaves_of_failure cfg _ hkey]

/-- R73, R106: two failures with one explicit key leave the record. -/
theorem ccLeaves_twice_of_failure (cfg : Config) {p : Bool} {key : Int} (hkey : keyOfInt key = none)
    (hauto : key ≠ keyAuto) {i : Instr} (hi : i = .ccEnc p key ∨ i = .ccDec p key) (r : Vector Byte 6) :
    ccLeaves cfg i (ccLeaves cfg i r) = r := by
  cases p
  · obtain rfl | rfl := hi <;> rfl
  · rw [ccLeaves_of_failure cfg hkey hauto hi, ccLeaves_of_failure cfg hkey hauto hi, failWrite_failWrite]

/-- R70, R117: a failed explicit key can be retried; byte 0 is still the only byte read. -/
theorem CcReadable.again {p : Bool} {key : Int} (hkey : keyOfInt key = none) (hauto : key ≠ keyAuto) {i : Instr}
    (hi : i = .ccEnc p key ∨ i = .ccDec p key) {s t : State} (hwritten : t.recordWritten = s.recordWritten)
    (h : CcReadable i s) : CcReadable i t := by
  intro hp
  have herror : verdict t.record[(0 : Fin 6)] i = .unsupportedKey := by
    obtain rfl | rfl := hi <;> obtain rfl : p = true := hp
    · rw [verdict_ccEnc_explicit _ hauto, keyVerdict_of_failure hkey]
    · rw [verdict_ccDec_explicit _ hauto, keyVerdict_of_failure hkey]
  rw [hwritten, herror]
  exact ⟨(h hp).1, fun hok => by cases hok⟩

/-- Settles O35: the three retries. -/
theorem retryingAFailure : Obligations.RetryingAFailure := by
  intro s t key p n i
  refine ⟨fun h _ => exec_ccDec_auto_again h, fun hi h hfailed => exec_rc_again hi h hfailed,
    fun cfg _ hbad hauto => ?_⟩
  have hkey : keyOfInt key = none := (keyOfInt_eq_none key).mpr hbad
  constructor
  · intro h
    have hreads := ccReadable_of_ccEncrypt h
    obtain rfl := Host.Outcome.next.inj (h.symm.trans (ccEncrypt_of_readable cfg p key s hreads))
    exact ⟨_, ccEncrypt_of_readable cfg p key _ (.again (s := s) hkey hauto (.inl rfl) rfl hreads),
      ccLeaves_twice_of_failure cfg hkey hauto (.inl rfl) s.record⟩
  · intro h
    have hreads := ccReadable_of_ccDecrypt h
    obtain rfl := Host.Outcome.next.inj (h.symm.trans (ccDecrypt_of_readable cfg p key s hreads))
    exact ⟨_, ccDecrypt_of_readable cfg p key _ (.again (s := s) hkey hauto (.inr rfl) rfl hreads),
      ccLeaves_twice_of_failure cfg hkey hauto (.inr rfl) s.record⟩

end Sys2Proof.Machine
end

section
/-! PROOFS. The text form of a record (R60): each byte is two digits that read back to it. -/

namespace Sys2Proof.Machine

/-- R60: the digit of a value reads back as the value. -/
theorem hexDigit_hexChar : ∀ n : Fin 16, hexDigit (hexChar n) = some n.val := by
  decide

/-- R60: the two digits of a byte read back as the byte. -/
theorem readByte_of_digits (b : Byte) : readByte (hexChar (b.toNat / 16)) (hexChar (b.toNat % 16)) = some b := by
  have hb := b.isLt
  have hhigh : hexDigit (hexChar (b.toNat / 16)) = some (b.toNat / 16) :=
    hexDigit_hexChar ⟨b.toNat / 16, by omega⟩
  have hlow : hexDigit (hexChar (b.toNat % 16)) = some (b.toNat % 16) :=
    hexDigit_hexChar ⟨b.toNat % 16, by omega⟩
  rw [readByte, hhigh, hlow, Option.bind_some, Option.map_some, Nat.div_add_mod, BitVec.ofNat_toNat, BitVec.setWidth_eq]

/-- Settles O49: the twelve digits of the text form are read two by two. -/
theorem recordTextReadsBack : Obligations.RecordTextReadsBack := by
  refine ⟨fun r => ?_, by decide, by decide⟩
  obtain ⟨a, b, c, d, e, f, rfl⟩ := record_cases r
  have htext : (recordText #v[a, b, c, d, e, f]).toList =
      byteText a ++ byteText b ++ byteText c ++ byteText d ++ ' ' :: (byteText e ++ byteText f) := String.toList_ofList
  rw [htext]
  simp only [byteText, List.cons_append, List.nil_append, readRecord, readByte_of_digits]
  rfl

end Sys2Proof.Machine
end
